-- ==== Sys2Proof/Word.lean ====
section
/-! DEFINITION. The two word types of the engine: a byte (00_scope.md R10) and a 32-bit word (the command word of
30_encoding.md R80 and the control registers of 10_state.md section 6). Everything else the engine computes with is a
natural number or a byte string (R9). -/

namespace Sys2Proof

/-- A byte: 8 bits, a value in 0 to 255 (R10). -/
abbrev Byte := BitVec 8

/-- A 32-bit word: a command word, a control register, the value a host access carries. -/
abbrev Word := BitVec 32

end Sys2Proof
end

