-- ==== Sys2Proof/Syntax.lean ====
section
/-! DEFINITION. The 13 commands of 30_encoding.md R84, one constructor a row, operands in the order of R88: rd, rs1, rs2, rs3, rs4,
used fields only. -/

namespace Sys2Proof

/-- An integer register X0 to X7 (10_state.md R21; class X of 30_encoding.md R81). -/
abbrev XReg := Fin 8

/-- A byte buffer B0 to B3 (10_state.md R25; class B of 30_encoding.md R81). -/
abbrev BReg := Fin 4

/-- The commands of the engine (30_encoding.md R84). -/
inductive Instr where
  /-- GCD Xd, Xa, Xb (R100). -/
  | gcd (rd rs1 rs2 : XReg)
  /-- MODINV Xd, Xa, Xm (R103). -/
  | modinv (rd rs1 rs2 : XReg)
  /-- MODEXP Xd, Xbase, Xexp, Xmod (R106). -/
  | modexp (rd rs1 rs2 rs3 : XReg)
  /-- BYTELEN Xd, Xn (R109). -/
  | bytelen (rd rs1 : XReg)
  /-- ISPRIME Xd, Xn, Xrounds (R120). -/
  | isprime (rd rs1 rs2 : XReg)
  /-- GENPRIME Xd, Xbits (R125). -/
  | genprime (rd rs1 : XReg)
  /-- MGF1 Bd, Bseed, Xlen (R141). -/
  | mgf1 (rd rs1 : BReg) (rs2 : XReg)
  /-- OAEPENC Bd, Bmsg, Blabel, Xk (R150). -/
  | oaepenc (rd rs1 rs2 : BReg) (rs3 : XReg)
  /-- OAEPDEC Bd, Bem, Blabel, Xk (R155). -/
  | oaepdec (rd rs1 rs2 : BReg) (rs3 : XReg)
  /-- PSSENC Bd, Bmsg, XemBits, XsaltLen (R160). -/
  | pssenc (rd rs1 : BReg) (rs2 rs3 : XReg)
  /-- PSSVER Xd, Bmsg, Bem, XemBits, XsaltLen (R165). -/
  | pssver (rd : XReg) (rs1 rs2 : BReg) (rs3 rs4 : XReg)
  /-- OS2IP Xd, Bs (R180). -/
  | os2ip (rd : XReg) (rs1 : BReg)
  /-- I2OSP Bd, Xv, Xlen (R183). -/
  | i2osp (rd : BReg) (rs1 rs2 : XReg)
deriving DecidableEq, Repr

end Sys2Proof
end

