-- ==== Sys2Proof/WellFormed.lean ====
section
/-! DEFINITION. The fields of a command word (format C, 30_encoding.md R80) and the field-by-field legality check of R81 and R87,
written from the field classes and not from the masks of R84 that the decoder uses. A term of `Instr` is well formed by its
type; what can be ill formed is a word, seen as its fields. -/

namespace Sys2Proof

/-- The class of a register field of a command (R81). -/
inductive FieldClass where
  /-- Names an integer register: legal for 0 to 7. -/
  | x
  /-- Names a byte buffer: legal for 0 to 3. -/
  | b
  /-- Not used by the command: legal only when 0. -/
  | unused
deriving DecidableEq, Repr

/-- Format C of R80: the seven fields of a command word. -/
structure FormatC where
  opcode : BitVec 8
  rd : BitVec 4
  rs1 : BitVec 4
  rs2 : BitVec 4
  rs3 : BitVec 4
  rs4 : BitVec 4
  zero : BitVec 4
deriving DecidableEq, Repr

/-- The fields of a 32-bit word, at the bit positions of R80. -/
def FormatC.ofWord (w : Word) : FormatC where
  opcode := w.extractLsb' 0 8
  rd := w.extractLsb' 8 4
  rs1 := w.extractLsb' 12 4
  rs2 := w.extractLsb' 16 4
  rs3 := w.extractLsb' 20 4
  rs4 := w.extractLsb' 24 4
  zero := w.extractLsb' 28 4

/-- Whether a field value is legal for its class (R81). -/
def FieldClass.admits : FieldClass → BitVec 4 → Bool
  | .x, f => f.toNat < 8
  | .b, f => f.toNat < 4
  | .unused, f => f == 0

/-- The classes of rd, rs1, rs2, rs3, rs4 for each of the 13 opcodes (R84); `none` for the 243 others (R83). -/
def fieldClasses (opcode : BitVec 8) : Option (List FieldClass) :=
  match opcode.toNat with
  | 0x01 => some [.x, .x, .x, .unused, .unused]
  | 0x02 => some [.x, .x, .x, .unused, .unused]
  | 0x03 => some [.x, .x, .x, .x, .unused]
  | 0x04 => some [.x, .x, .unused, .unused, .unused]
  | 0x10 => some [.x, .x, .x, .unused, .unused]
  | 0x11 => some [.x, .x, .unused, .unused, .unused]
  | 0x20 => some [.b, .b, .x, .unused, .unused]
  | 0x21 => some [.b, .b, .b, .x, .unused]
  | 0x22 => some [.b, .b, .b, .x, .unused]
  | 0x23 => some [.b, .b, .x, .x, .unused]
  | 0x24 => some [.x, .b, .b, .x, .x]
  | 0x30 => some [.x, .b, .unused, .unused, .unused]
  | 0x31 => some [.b, .x, .x, .unused, .unused]
  | _ => none

/-- R81 and R87 on the fields of a word: an assigned opcode, every register field legal for its class, bits 31:28 zero. -/
def FormatC.wellFormed (f : FormatC) : Bool :=
  match fieldClasses f.opcode with
  | none => false
  | some classes =>
    f.zero == 0 &&
      (classes.zip [f.rd, f.rs1, f.rs2, f.rs3, f.rs4]).all (fun p => p.1.admits p.2)

end Sys2Proof
end

