-- ==== Sys2Proof/Decode.lean ====
section
/-! DEFINITION. The decoder and the encoder of command words. The decoder is the table of 30_encoding.md R84 read as the rule says
("a word selects a command exactly when (word AND mask) = match"); it is total on 32-bit words and rejects by name. The
encoder is the assembly formula of R85. -/

namespace Sys2Proof

/-- Why a word is no command (the causes listed in 60_exceptions.md R251). All of them raise the one failure IllegalCommand
(44_command_control.md R191). -/
inductive Illegal where
  /-- The opcode byte is none of the 13 (R83, R87). -/
  | unknownOpcode
  /-- A bit of 31:28 is set (R80). -/
  | zeroField
  /-- A register field is above its class's range, or an unused field is not 0 (R81, R87). -/
  | registerField
deriving DecidableEq, Repr

/-- The register field of four bits whose lowest bit is bit `lo` of the word (R80). -/
def field (w : Word) (lo : Nat) : Nat := w.toNat / 2 ^ lo % 16

/-- A class-X field as a register number; the masks of R84 let only 0 to 7 through. -/
def xField (w : Word) (lo : Nat) : XReg := Fin.ofNat 8 (field w lo)

/-- A class-B field as a buffer number; the masks of R84 let only 0 to 3 through. -/
def bField (w : Word) (lo : Nat) : BReg := Fin.ofNat 4 (field w lo)

/-- One row of the table of R84: its mask, its match value and the command its fields name. -/
structure OpcodeRow where
  mask : Word
  value : Word
  build : Word → Instr

/-- The 13 rows of R84. -/
def opcodeRows : List OpcodeRow := [
  ⟨0xFFF888FF, 0x00000001, fun w => .gcd (xField w 8) (xField w 12) (xField w 16)⟩,
  ⟨0xFFF888FF, 0x00000002, fun w => .modinv (xField w 8) (xField w 12) (xField w 16)⟩,
  ⟨0xFF8888FF, 0x00000003, fun w => .modexp (xField w 8) (xField w 12) (xField w 16) (xField w 20)⟩,
  ⟨0xFFFF88FF, 0x00000004, fun w => .bytelen (xField w 8) (xField w 12)⟩,
  ⟨0xFFF888FF, 0x00000010, fun w => .isprime (xField w 8) (xField w 12) (xField w 16)⟩,
  ⟨0xFFFF88FF, 0x00000011, fun w => .genprime (xField w 8) (xField w 12)⟩,
  ⟨0xFFF8CCFF, 0x00000020, fun w => .mgf1 (bField w 8) (bField w 12) (xField w 16)⟩,
  ⟨0xFF8CCCFF, 0x00000021, fun w => .oaepenc (bField w 8) (bField w 12) (bField w 16) (xField w 20)⟩,
  ⟨0xFF8CCCFF, 0x00000022, fun w => .oaepdec (bField w 8) (bField w 12) (bField w 16) (xField w 20)⟩,
  ⟨0xFF88CCFF, 0x00000023, fun w => .pssenc (bField w 8) (bField w 12) (xField w 16) (xField w 20)⟩,
  ⟨0xF88CC8FF, 0x00000024,
    fun w => .pssver (xField w 8) (bField w 12) (bField w 16) (xField w 20) (xField w 24)⟩,
  ⟨0xFFFFC8FF, 0x00000030, fun w => .os2ip (xField w 8) (bField w 12)⟩,
  ⟨0xFFF88CFF, 0x00000031, fun w => .i2osp (bField w 8) (xField w 12) (xField w 16)⟩]

/-- The row a word selects, if any (R84). -/
def selectRow (w : Word) : Option OpcodeRow := opcodeRows.find? (fun r => w &&& r.mask == r.value)

/-- The opcode bytes of R83. -/
def assignedOpcodes : List Nat := [0x01, 0x02, 0x03, 0x04, 0x10, 0x11, 0x20, 0x21, 0x22, 0x23, 0x24, 0x30, 0x31]

/-- The name of the cause for which a word that matches no row is illegal (R251). -/
def illegalCause (w : Word) : Illegal :=
  if w.toNat % 256 ∉ assignedOpcodes then .unknownOpcode
  else if field w 28 ≠ 0 then .zeroField
  else .registerField

/-- The command a word names, or the cause it names none (R84, R86). -/
def decode (w : Word) : Except Illegal Instr :=
  match selectRow w with
  | some r => .ok (r.build w)
  | none => .error (illegalCause w)

/-- The formula of R85. -/
def assemble (opcode rd rs1 rs2 rs3 rs4 : Nat) : Word :=
  BitVec.ofNat 32 (opcode + 2 ^ 8 * rd + 2 ^ 12 * rs1 + 2 ^ 16 * rs2 + 2 ^ 20 * rs3 + 2 ^ 24 * rs4)

/-- The word of a command (R84 for the opcodes and the places of the operands, R85 for the formula). -/
def encode : Instr → Word
  | .gcd rd rs1 rs2 => assemble 0x01 rd rs1 rs2 0 0
  | .modinv rd rs1 rs2 => assemble 0x02 rd rs1 rs2 0 0
  | .modexp rd rs1 rs2 rs3 => assemble 0x03 rd rs1 rs2 rs3 0
  | .bytelen rd rs1 => assemble 0x04 rd rs1 0 0 0
  | .isprime rd rs1 rs2 => assemble 0x10 rd rs1 rs2 0 0
  | .genprime rd rs1 => assemble 0x11 rd rs1 0 0 0
  | .mgf1 rd rs1 rs2 => assemble 0x20 rd rs1 rs2 0 0
  | .oaepenc rd rs1 rs2 rs3 => assemble 0x21 rd rs1 rs2 rs3 0
  | .oaepdec rd rs1 rs2 rs3 => assemble 0x22 rd rs1 rs2 rs3 0
  | .pssenc rd rs1 rs2 rs3 => assemble 0x23 rd rs1 rs2 rs3 0
  | .pssver rd rs1 rs2 rs3 rs4 => assemble 0x24 rd rs1 rs2 rs3 rs4
  | .os2ip rd rs1 => assemble 0x30 rd rs1 0 0 0
  | .i2osp rd rs1 rs2 => assemble 0x31 rd rs1 rs2 0 0

/-- The word the opcode table numbers as `w` with `nbits` bits: bit 0 is the least significant bit, the bits above `nbits` are 0.
A command word is a number written whole (R80), so no byte order enters. -/
def tableWord (nbits w : Nat) : Word := BitVec.ofNat 32 (w % 2 ^ nbits)

/-- What the decoder reads from a word numbered as the opcode table numbers it. -/
def decodeTableWord (nbits w : Nat) : Option Instr :=
  match decode (tableWord nbits w) with
  | .ok i => some i
  | .error _ => none

end Sys2Proof
end

