-- ==== Sys2Proof/Config.lean ====
section
/-! DEFINITION. What an implementation fixes (00_scope.md R7: XBYTES, BUFBYTES, HLEN, BASE, HASH) and the free values (draws of
R14, the answer of a refused read of 20_memory.md R58, the platform's answer outside the window of R51). Every opaque
constant here has no body: no proof can see its value (log 1, 4, 5, 6). -/

namespace Sys2Proof.Config

/-- The open size parameters of R7, together with the constraints R7 puts on them. -/
structure Params where
  /-- XBYTES: width of every integer register in bytes. -/
  xBytes : Nat
  /-- BUFBYTES: capacity of every byte buffer in bytes. -/
  bufBytes : Nat
  /-- HLEN: output length of the hash in bytes. -/
  hLen : Nat
  /-- BASE: the platform address of the host window. -/
  base : Nat
  /-- R7's constraints on the four. -/
  valid : (4 ≤ xBytes ∧ xBytes ≤ 65536) ∧ (xBytes ≤ bufBytes ∧ bufBytes ≤ 65536) ∧
    (1 ≤ hLen ∧ hLen ≤ 255) ∧ base % 0x200000 = 0
deriving DecidableEq, Repr

/-- XBYTES less 4, any value R7 admits. -/
opaque xBytesExtra : Fin 65533
/-- BUFBYTES before it is raised to at least XBYTES. -/
opaque bufBytesRaw : Fin 65537
/-- HLEN less 1. -/
opaque hLenExtra : Fin 255
/-- BASE divided by 0x200000. -/
opaque baseIndex : Nat

/-- The parameters of the machine whose reset state is `State.reset`: any four numbers R7 admits, and no number in
particular. -/
def params : Params where
  xBytes := xBytesExtra.val + 4
  bufBytes := max (xBytesExtra.val + 4) bufBytesRaw.val
  hLen := hLenExtra.val + 1
  base := 0x200000 * baseIndex
  valid := by
    have h1 := xBytesExtra.isLt
    have h2 := bufBytesRaw.isLt
    have h3 := hLenExtra.isLt
    refine ⟨⟨?_, ?_⟩, ⟨?_, ?_⟩, ⟨?_, ?_⟩, ?_⟩ <;> omega

/-- The hash of a machine whose HLEN is `hLen`: a total function from byte strings to `hLen` bytes (R7, R13). -/
opaque hashBytes : (hLen : Nat) → List Byte → Vector Byte hLen

/-- `HASH(s)` of R13 on a machine with parameters `P`. -/
def hash (P : Params) (s : List Byte) : List Byte := (hashBytes P.hLen s).toList

/-- The raw answers of the random source beyond those listed in the state, one for each value of the counter (R14): a draw is
cut to its range where it is used. -/
opaque draw : Nat → Nat

/-- The unspecified value a refused read returns, one for each value of the counter (20_memory.md R58). -/
opaque refusedRead : Nat → Nat

/-- What the platform returns for a read that is no access to the engine (20_memory.md R51). -/
opaque platformRead : Nat → Nat

end Sys2Proof.Config
end

