-- ==== Sys2Proof/Machine/State.lean ====
section
/-! DEFINITION. The state of the engine (10_state.md R20), the events at its host port (20_memory.md R50, R61), the reasons a step
can stop, and the state after reset (R33). Plain data throughout. -/

namespace Sys2Proof.Machine

/-- The failures a command can end with (60_exceptions.md R250, every row but `none`). A failure is a result of the command,
held in STATUS.ERR, not a stop of the machine (R257). -/
inductive Failure where
  /-- 0x01: the issued word is not legal (R251). -/
  | illegalCommand
  /-- 0x02: a result larger than a register or a buffer, or a value that does not fit the length asked (R252). -/
  | rangeError
  /-- 0x03: MODINV or MODEXP with modulus 0 (R253). -/
  | zeroModulus
  /-- 0x04: GENPRIME with bits below 16 (R254). -/
  | badParameter
  /-- 0x10: MODINV of a number that is not coprime to the modulus (R103). -/
  | noInverse
  /-- 0x11: OAEPENC of a message that does not fit (R150). -/
  | messageTooLarge
  /-- 0x12: OAEPDEC of a block with bad padding, PSSENC into a block too short (R155, R160). -/
  | paddingError
deriving DecidableEq, Repr

/-- One entry of the total order of 20_memory.md R61: a host access at a platform address, a moment at which the engine may take
its step, the host's polling loop, or the platform's reset. -/
inductive Event where
  /-- MemRead of `n` bytes at platform address `addr` (R50). -/
  | read (addr n : Nat)
  /-- MemWrite of the low `n` bytes of `v` at platform address `addr` (R50). -/
  | write (addr n : Nat) (v : Word)
  /-- The engine takes its step here if it has one (44_command_control.md R192). -/
  | engine
  /-- WAIT of 30_encoding.md R89: STATUS is read until BUSY is 0, the engine moving in between (R195). -/
  | wait
  /-- The reset input (70_reset_and_hazards.md R280). -/
  | reset
deriving DecidableEq, Repr

/-- The bytes of the four buffers, keyed by their offset in the host window; an unlisted byte reads 0, its reset value (R33). -/
abbrev Memory := List Host.Cell

/-- The state of the engine and of its two surroundings, the port and the random source. -/
structure State where
  /-- MODEL'S OWN: the parameters of 00_scope.md R7; no step changes them (log 1). -/
  cfg : Config.Params
  /-- X0 to X7 (R21). -/
  x : Vector Nat 8
  /-- BDATA[0..3] (R25). -/
  mem : Memory
  /-- BLEN[0..3] (R25, R30). -/
  blen : Vector Nat 4
  /-- PEND, the last accepted command word (R27). -/
  pend : Word
  /-- STATUS.BUSY (R28). -/
  busy : Bool
  /-- STATUS.HERR (R28, R261). -/
  herr : Bool
  /-- STATUS.ERR (R28, R250); `none` is code 0, no failure outstanding. -/
  err : Option Failure
  /-- MODEL'S OWN: the events still to come, oldest first (R61; log 2). -/
  port : List Event
  /-- MODEL'S OWN: the value the last host read returned (R50; log 3). -/
  rdata : Word
  /-- MODEL'S OWN: the answers the random source has ready, oldest first (R14; log 4). -/
  draws : List Nat
  /-- MODEL'S OWN: how many free values have been taken from the constants of Config (log 4). -/
  drawn : Nat
deriving DecidableEq, Repr

/-- Why the model stops. -/
inductive Fault where
  /-- Raised by the engine's turn when BUSY = 1 and PEND is no legal command word; R34 says no run reaches such a state and the spec
  gives it no effect. Safe. -/
  | pendingIllegal
deriving DecidableEq, Repr

/-- Why the model gives an instruction no meaning. -/
inductive Refusal where
  /-- Raised by `exec` for an instruction without a meaning; no arm raises it in this model. Safe. -/
  | notModelled (mnemonic : String)
deriving DecidableEq, Repr

/-- The state right after reset (10_state.md R33, 70_reset_and_hazards.md R280), with nothing yet at the port. -/
def State.reset : State where
  cfg := Config.params
  x := Vector.replicate 8 0
  mem := []
  blen := Vector.replicate 4 0
  pend := 0
  busy := false
  herr := false
  err := none
  port := []
  rdata := 0
  draws := []
  drawn := 0

end Sys2Proof.Machine
end

