-- ==== Sys2Proof/Machine/Flags.lean ====
section
/-! DEFINITION. The status fields: the failure codes of 60_exceptions.md R250 and the STATUS word of 10_state.md R28. No command reads
them (R24). -/

namespace Sys2Proof.Machine

/-- The 8-bit code of STATUS.ERR (R250). -/
def errCode : Option Failure → BitVec 8
  | none => 0x00
  | some .illegalCommand => 0x01
  | some .rangeError => 0x02
  | some .zeroModulus => 0x03
  | some .badParameter => 0x04
  | some .noInverse => 0x10
  | some .messageTooLarge => 0x11
  | some .paddingError => 0x12

/-- The STATUS word: BUSY in bit 0, HERR in bit 1, ERR in bits 15:8, every other bit 0 (R28). -/
def State.statusWord (s : State) : Word :=
  BitVec.ofNat 32 (s.busy.toNat + 2 * s.herr.toNat + 2 ^ 8 * (errCode s.err).toNat)

end Sys2Proof.Machine
end

