-- ==== Sys2Proof/Machine/Bytes.lean ====
section
/-! DEFINITION. Numbers and byte strings: the notation of 00_scope.md R9 to R12, as total functions. -/

namespace Sys2Proof.Machine

/-- `zeros(n)` of R10. -/
def zeros (n : Nat) : List Byte := List.replicate n 0

/-- `xor(s, t)` of R10: byte by byte. -/
def xorBytes (s t : List Byte) : List Byte := List.zipWith (· ^^^ ·) s t

/-- `s[i..j)` of R10. -/
def slice (s : List Byte) (i j : Nat) : List Byte := (s.drop i).take (j - i)

/-- `OS2IP(s)` of R11: the number whose big-endian representation is `s`. -/
def os2ip (s : List Byte) : Nat := s.foldl (fun v b => 256 * v + b.toNat) 0

/-- `I2OSP(v, n)` of R11 for `v < 256^n`: the `n` bytes of `v`, most significant first. (For a larger `v`, the `n` low bytes.) -/
def i2osp (v : Nat) : Nat → List Byte
  | 0 => []
  | n + 1 => i2osp (v / 256) n ++ [BitVec.ofNat 8 v]

/-- `ceil(a/b)` of R9. -/
def ceilDiv (a b : Nat) : Nat := (a + b - 1) / b

/-- `bitLength(n)` of R12. -/
def bitLength (n : Nat) : Nat := if n = 0 then 0 else n.log2 + 1

/-- `byteLen(n)` of R12: `ceil(bitLength(n)/8)`. -/
def byteLen (n : Nat) : Nat := ceilDiv (bitLength n) 8

end Sys2Proof.Machine
end

