-- ==== Sys2Proof/Machine/Memory.lean ====
section
/-! DEFINITION. The bytes of the buffers as a list of cells in one canonical form: addresses strictly rising, no cell holding 0, the
value an unlisted byte reads as (10_state.md R33: every byte is 0 after reset). -/

namespace Sys2Proof.Machine

/-- The byte at an address. -/
def Memory.read : Memory → Nat → Byte
  | [], _ => 0
  | c :: m, a => if c.1 = a then c.2 else Memory.read m a

/-- The memory with a cell put before the first cell of a higher address. -/
def Memory.insert : Memory → Host.Cell → Memory
  | [], d => [d]
  | c :: m, d => if d.1 < c.1 then d :: c :: m else c :: Memory.insert m d

/-- The memory with one byte written: what was at its address goes, and a cell comes there unless the byte is 0. -/
def Memory.write (m : Memory) (a : Nat) (v : Byte) : Memory :=
  if v = 0 then m.filter (fun c => c.1 != a) else Memory.insert (m.filter (fun c => c.1 != a)) (a, v)

/-- The memory with the bytes of a string written from `a` up, first byte at `a`. -/
def Memory.writeBytes : Memory → Nat → List Byte → Memory
  | m, _, [] => m
  | m, a, b :: s => Memory.writeBytes (Memory.write m a b) (a + 1) s

/-- The `n` bytes from `a` up, in ascending order. -/
def Memory.readBytes (m : Memory) (a n : Nat) : List Byte := (List.range n).map (fun o => Memory.read m (a + o))

/-- The memory with the `n` bytes from `a` up set to 0. -/
def Memory.clear (m : Memory) (a n : Nat) : Memory := m.filter (fun c => !(a ≤ c.1 && c.1 < a + n))

/-- The canonical form: addresses strictly rising, no cell holding 0. -/
def Memory.wf : Memory → Bool
  | [] => true
  | c :: m => c.2 != 0 && m.all (fun d => c.1 < d.1) && Memory.wf m

end Sys2Proof.Machine
end

