-- ==== Sys2Proof/Machine/Operands.lean ====
section
/-! DEFINITION. The operand forms of a command: `X[i]` and `B[j]`, read and written (00_scope.md R15, 10_state.md R21, R25, R26). There
are no others: no immediates and no addresses (30_encoding.md R82, 10_state.md R31). -/

namespace Sys2Proof.Machine

/-- `X[i]` (R15). -/
def State.readX (s : State) (i : XReg) : Nat := s.x[i]

/-- `X[i] <- v` (R15). -/
def State.writeX (s : State) (i : XReg) (v : Nat) : State := { s with x := s.x.set i v }

/-- Where the data array of buffer `j` starts in the host window (20_memory.md R52). -/
def bufferBase (j : BReg) : Nat := 0x100000 + 0x10000 * j.val

/-- `BLEN[j]` (R25). -/
def State.readLen (s : State) (j : BReg) : Nat := s.blen[j]

/-- `BLEN[j] <- n`, changing no data byte (R30). -/
def State.writeLen (s : State) (j : BReg) (n : Nat) : State := { s with blen := s.blen.set j n }

/-- `BDATA[j][o]` (R25). -/
def State.readData (s : State) (j : BReg) (o : Nat) : Byte := Memory.read s.mem (bufferBase j + o)

/-- `B[j]`: the first BLEN[j] bytes of the data array (R25). -/
def State.readB (s : State) (j : BReg) : List Byte := Memory.readBytes s.mem (bufferBase j) (s.readLen j)

/-- `B[j] <- v`: the whole array is rewritten, zero beyond the new length (R26). -/
def State.writeB (s : State) (j : BReg) (v : List Byte) : State :=
  { s with
    mem := Memory.writeBytes (Memory.clear s.mem (bufferBase j) s.cfg.bufBytes) (bufferBase j) v
    blen := s.blen.set j v.length }

end Sys2Proof.Machine
end

