-- ==== Sys2Proof/Machine/Ops.lean ====
section
/-! DEFINITION. The operations the commands and the port share: a failure and its acknowledge, the completion of a command, the draws of
the random source, the reset event. -/

namespace Sys2Proof.Machine

/-- `raise E` (60_exceptions.md R256): ERR takes the code, BUSY is cleared, nothing else changes. There is no handler and nothing
is saved. -/
def State.raise (s : State) (e : Failure) : State := { s with err := some e, busy := false }

/-- A write of `v` to CTRL (10_state.md R29): bit 0 acknowledges the failure, which is the return from it (60_exceptions.md R258); bit
1 clears the refused-access mark; the other bits are ignored. -/
def State.acknowledge (s : State) (v : Word) : State :=
  { s with
    err := if v.getLsbD 0 then none else s.err
    herr := if v.getLsbD 1 then false else s.herr }

/-- The draws from the `k`-th upcoming one on: the listed ones, then the random source's own (00_scope.md R14). -/
def State.upcoming (s : State) (k : Nat) : Nat :=
  if k < s.draws.length then s.draws.getD k 0 else Config.draw (s.drawn + (k - s.draws.length))

/-- The state once `k` draws have been taken. -/
def State.takeDraws (s : State) (k : Nat) : State :=
  { s with draws := s.draws.drop k, drawn := s.drawn + (k - s.draws.length) }

/-- The end of the pending command: BUSY is cleared (44_command_control.md R192). -/
def State.finish (s : State) : State := { s with busy := false }

/-- `RandRange(lo, hi)` (R14) answered by the raw draw `r`: `r` itself where the range admits it. Every value of the range is the
answer to some raw draw, and no other value is. -/
def randRange (r lo hi : Nat) : Nat := if lo ≤ r ∧ r ≤ hi then r else lo

/-- `RandBytes(n)` (R14) answered by the raw draw `r`. Every string of `n` bytes is the answer to some raw draw. -/
def randBytes (r n : Nat) : List Byte := i2osp (r % 256 ^ n) n

/-- Completion of a command with an X destination (44_command_control.md R192): its rule's result `r`, which took `k` draws when it is
a value. A failure takes no draw (60_exceptions.md R256). -/
def completeX (rd : XReg) (r : Except Failure Nat) (k : Nat) (s : State) : Host.Outcome State Fault Refusal :=
  match r with
  | .ok v => .next ((s.takeDraws k).writeX rd v).finish
  | .error e => .next (s.raise e)

/-- Completion of a command with a B destination (R192, R26). -/
def completeB (rd : BReg) (r : Except Failure (List Byte)) (k : Nat) (s : State) : Host.Outcome State Fault Refusal :=
  match r with
  | .ok v => .next ((s.takeDraws k).writeB rd v).finish
  | .error e => .next (s.raise e)

/-- The reset event (70_reset_and_hazards.md R280, R281): every item of architectural state takes its reset value; a pending command
is abandoned. What is outside the engine stays: the parameters, the events still to come, what the host has read, and the random
source, whose draws are not taken back. -/
def State.resetEvent (s : State) : State :=
  { State.reset with
    cfg := s.cfg
    port := s.port
    rdata := s.rdata
    draws := s.draws
    drawn := s.drawn }

end Sys2Proof.Machine
end

