-- ==== Sys2Proof/Machine/Conversion.lean ====
section
/-! DEFINITION. The conversions between the two register files (43_conversion.md): OS2IP, I2OSP. -/

namespace Sys2Proof.Machine

/-- OS2IP (R180). A value is `2^(8*XBYTES)` or more exactly when its byte length is above XBYTES. -/
def execOs2ip (rd : XReg) (rs1 : BReg) (s : State) : Host.Outcome State Fault Refusal :=
  let v := os2ip (s.readB rs1)
  completeX rd (if s.cfg.xBytes < byteLen v then .error .rangeError else .ok v) 0 s

/-- I2OSP (R183). -/
def execI2osp (rd : BReg) (rs1 rs2 : XReg) (s : State) : Host.Outcome State Fault Refusal :=
  let v := s.readX rs1
  let n := s.readX rs2
  completeB rd
    (if s.cfg.bufBytes < n then .error .rangeError
     else if 256 ^ n ≤ v then .error .rangeError
     else .ok (i2osp v n))
    0 s

end Sys2Proof.Machine
end

