-- ==== Sys2Proof/Machine/MathKernel.lean ====
section
/-! DEFINITION. The math kernel (40_math_kernel.md): GCD, MODINV, MODEXP, BYTELEN. Each loop of the spec's pseudocode is a recursion on a
bound of its number of iterations; all arithmetic is exact (R110), no draw is taken (R111). -/

namespace Sys2Proof.Machine

/-- The loop of R100; `fuel` bounds its iterations. -/
def gcdLoop : Nat → Nat → Nat → Nat
  | 0, a, _ => a
  | fuel + 1, a, b => if b ≠ 0 then gcdLoop fuel b (a % b) else a

/-- The greatest common divisor of R100: `b` falls in every iteration. -/
def euclid (a b : Nat) : Nat := gcdLoop (b + 1) a b

/-- The loop of R103 on `(r0, r1)` and the signed `(t0, t1)`; its answer is the last `r0` and `t0`. -/
def inverseLoop : Nat → Nat → Nat → Int → Int → Nat × Int
  | 0, r0, _, t0, _ => (r0, t0)
  | fuel + 1, r0, r1, t0, t1 =>
    if r1 ≠ 0 then inverseLoop fuel r1 (r0 - r0 / r1 * r1) t1 (t0 - (r0 / r1 : Nat) * t1) else (r0, t0)

/-- The modular inverse of R103, with its two failures in their order. -/
def modInverse (a m : Nat) : Except Failure Nat :=
  if m = 0 then .error .zeroModulus
  else
    let r := inverseLoop (m + 1) m (a % m) 0 1
    if r.1 ≠ 1 then .error .noInverse else .ok (r.2 % (m : Int)).toNat

/-- The loop of R106. -/
def powerLoop : Nat → Nat → Nat → Nat → Nat → Nat
  | 0, r, _, _, _ => r
  | fuel + 1, r, b, e, m =>
    if e > 0 then powerLoop fuel (if e % 2 = 1 then r * b % m else r) (b * b % m) (e / 2) m else r

/-- `base^exp mod m` for `m > 0` as R106 computes it: square and multiply, one iteration for each bit of the exponent. -/
def modPower (b e m : Nat) : Nat := powerLoop (bitLength e) (1 % m) (b % m) e m

/-- The modular exponentiation of R106 with its failure. -/
def modExp (b e m : Nat) : Except Failure Nat := if m = 0 then .error .zeroModulus else .ok (modPower b e m)

/-- GCD (R100). -/
def execGcd (rd rs1 rs2 : XReg) (s : State) : Host.Outcome State Fault Refusal :=
  completeX rd (.ok (euclid (s.readX rs1) (s.readX rs2))) 0 s

/-- MODINV (R103). -/
def execModinv (rd rs1 rs2 : XReg) (s : State) : Host.Outcome State Fault Refusal :=
  completeX rd (modInverse (s.readX rs1) (s.readX rs2)) 0 s

/-- MODEXP (R106). -/
def execModexp (rd rs1 rs2 rs3 : XReg) (s : State) : Host.Outcome State Fault Refusal :=
  completeX rd (modExp (s.readX rs1) (s.readX rs2) (s.readX rs3)) 0 s

/-- BYTELEN (R109). -/
def execBytelen (rd rs1 : XReg) (s : State) : Host.Outcome State Fault Refusal :=
  completeX rd (.ok (byteLen (s.readX rs1))) 0 s

end Sys2Proof.Machine
end

