-- ==== Sys2Proof/Machine/Padding.lean ====
section
/-! DEFINITION. The padding schemes (42_padding.md): MGF1, OAEPENC, OAEPDEC, PSSENC, PSSVER. Each scheme is a function of the hash, its
output length and its operands; the commands bind them to the configured hash (R170). Masking is `xorBytes`. -/

namespace Sys2Proof.Machine

/-- The loop of R140 on `(T, c)`; `fuel` bounds its iterations. -/
def maskLoop (hash : List Byte → List Byte) (seed : List Byte) (maskLen : Nat) : Nat → List Byte → Nat → List Byte
  | 0, t, _ => t
  | fuel + 1, t, c =>
    if t.length < maskLen then maskLoop hash seed maskLen fuel (t ++ hash (seed ++ i2osp c 4)) (c + 1) else t

/-- `MGF1(seed, maskLen)` of R140; each block has at least one byte, so `maskLen` iterations are enough. -/
def mgf1 (hash : List Byte → List Byte) (seed : List Byte) (maskLen : Nat) : List Byte :=
  (maskLoop hash seed maskLen maskLen [] 0).take maskLen

/-- MGF1 (R141). -/
def execMgf1 (rd rs1 : BReg) (rs2 : XReg) (s : State) : Host.Outcome State Fault Refusal :=
  completeB rd
    (if s.cfg.bufBytes < s.readX rs2 then .error .rangeError
     else .ok (mgf1 (Config.hash s.cfg) (s.readB rs1) (s.readX rs2)))
    0 s

/-- The encoded block of R150 for message `m`, label `l`, length `k` and the drawn seed, once the checks have passed. -/
def oaepBlock (hash : List Byte → List Byte) (hLen : Nat) (m l : List Byte) (k : Nat) (seed : List Byte) : List Byte :=
  let ps := zeros (k - m.length - 2 * hLen - 2)
  let db := hash l ++ ps ++ [0x01] ++ m
  let maskedDB := xorBytes db (mgf1 hash seed (k - hLen - 1))
  let maskedSeed := xorBytes seed (mgf1 hash maskedDB hLen)
  [0x00] ++ maskedSeed ++ maskedDB

/-- OAEPENC (R150): the checks in the order of R269, then one draw of HLEN bytes. -/
def execOaepenc (rd rs1 rs2 : BReg) (rs3 : XReg) (s : State) : Host.Outcome State Fault Refusal :=
  let m := s.readB rs1
  let k := s.readX rs3
  let hLen := s.cfg.hLen
  completeB rd
    (if s.cfg.bufBytes < k then .error .rangeError
     else if k < m.length + 2 * hLen + 2 then .error .messageTooLarge
     else .ok (oaepBlock (Config.hash s.cfg) hLen m (s.readB rs2) k (randBytes (s.upcoming 0) hLen)))
    1 s

/-- What is left of an unmasked DB after the label hash, scanned as in R155: the message behind the first byte that is not
0x00, when that byte is 0x01 (R156). -/
def messageAfterSeparator (rest : List Byte) : Option (List Byte) :=
  match rest.dropWhile (· == 0x00) with
  | [] => none
  | b :: m => if b = 0x01 then some m else none

/-- The decoding of R155: the message, or `none` for each of the five causes of PaddingError, which nothing tells apart (R157). -/
def oaepMessage (hash : List Byte → List Byte) (hLen : Nat) (em l : List Byte) (k : Nat) : Option (List Byte) :=
  if em.length ≠ k then none
  else if k < 2 * hLen + 2 then none
  else
    let maskedSeed := slice em 1 (1 + hLen)
    let maskedDB := slice em (1 + hLen) k
    let seed := xorBytes maskedSeed (mgf1 hash maskedDB hLen)
    let db := xorBytes maskedDB (mgf1 hash seed (k - hLen - 1))
    let message := messageAfterSeparator (db.drop hLen)
    if em.getD 0 0 ≠ 0x00 ∨ db.take hLen ≠ hash l then none else message

/-- OAEPDEC (R155). -/
def execOaepdec (rd rs1 rs2 : BReg) (rs3 : XReg) (s : State) : Host.Outcome State Fault Refusal :=
  completeB rd
    (match oaepMessage (Config.hash s.cfg) s.cfg.hLen (s.readB rs1) (s.readB rs2) (s.readX rs3) with
     | some m => .ok m
     | none => .error .paddingError)
    0 s

/-- The length in bytes of a PSS block of `emBits` bits (R160). -/
def pssLength (emBits : Nat) : Nat := ceilDiv emBits 8

/-- Clears the top `z` bits of the first byte (R160: AND with `0xFF div 2^z`). -/
def clearTopBits (z : Nat) : List Byte → List Byte
  | [] => []
  | b :: s => (b &&& BitVec.ofNat 8 (0xFF / 2 ^ z)) :: s

/-- The hash `H2` of `M' = zeros(8) || HASH(M) || salt` (R160). -/
def pssHash (hash : List Byte → List Byte) (m salt : List Byte) : List Byte := hash (zeros 8 ++ hash m ++ salt)

/-- The encoded block of R160 for message `m`, `emBits` bits and the drawn salt, once the checks have passed. -/
def pssBlock (hash : List Byte → List Byte) (hLen : Nat) (m : List Byte) (emBits : Nat) (salt : List Byte) : List Byte :=
  let emLen := pssLength emBits
  let h2 := pssHash hash m salt
  let ps := zeros (emLen - salt.length - hLen - 2)
  let db := ps ++ [0x01] ++ salt
  let maskedDB := clearTopBits (8 * emLen - emBits) (xorBytes db (mgf1 hash h2 (emLen - hLen - 1)))
  maskedDB ++ h2 ++ [0xBC]

/-- PSSENC (R160): the checks in the order of R269, then one draw of saltLen bytes, none when saltLen is 0 (R162). -/
def execPssenc (rd rs1 : BReg) (rs2 rs3 : XReg) (s : State) : Host.Outcome State Fault Refusal :=
  let emBits := s.readX rs2
  let sLen := s.readX rs3
  let hLen := s.cfg.hLen
  completeB rd
    (if s.cfg.bufBytes < pssLength emBits then .error .rangeError
     else if pssLength emBits < hLen + sLen + 2 then .error .paddingError
     else .ok (pssBlock (Config.hash s.cfg) hLen (s.readB rs1) emBits (randBytes (s.upcoming 0) sLen)))
    (if sLen = 0 then 0 else 1) s

/-- The verification of R165, check by check (a) to (g). -/
def pssConsistent (hash : List Byte → List Byte) (hLen : Nat) (m em : List Byte) (emBits sLen : Nat) : Bool :=
  let emLen := pssLength emBits
  if em.length ≠ emLen then false                                             -- (a)
  else if emLen < hLen + sLen + 2 then false                                  -- (b)
  else if em.getD (emLen - 1) 0 ≠ 0xBC then false                             -- (c)
  else
    let maskedDB := slice em 0 (emLen - hLen - 1)
    let h2 := slice em (emLen - hLen - 1) (emLen - 1)
    let z := 8 * emLen - emBits
    if (maskedDB.getD 0 0).toNat / 2 ^ (8 - z) ≠ 0 then false                 -- (d)
    else
      let db := clearTopBits z (xorBytes maskedDB (mgf1 hash h2 (emLen - hLen - 1)))
      let p := emLen - hLen - sLen - 2
      if slice db 0 p ≠ zeros p then false                                    -- (e)
      else if db.getD p 0 ≠ 0x01 then false                                   -- (f)
      else pssHash hash m (db.drop (p + 1)) = h2                              -- (g)

/-- PSSVER (R165): always completes, with 1 or 0. -/
def execPssver (rd : XReg) (rs1 rs2 : BReg) (rs3 rs4 : XReg) (s : State) : Host.Outcome State Fault Refusal :=
  completeX rd
    (.ok (pssConsistent (Config.hash s.cfg) s.cfg.hLen (s.readB rs1) (s.readB rs2) (s.readX rs3) (s.readX rs4)).toNat)
    0 s

end Sys2Proof.Machine
end

