-- ==== Sys2Proof/Machine/Primality.lean ====
section
/-! DEFINITION. The primality tester (41_primality.md): ISPRIME, GENPRIME. A function that takes draws is given the source `src`, whose
value at `k` is the `k`-th raw draw still to come, and the number `k` of draws taken before it; its answer comes with the number
taken after it. -/

namespace Sys2Proof.Machine

/-- SMALL_PRIMES (00_scope.md R7). -/
def smallPrimes : List Nat := [2, 3, 5, 7, 11, 13, 17, 19, 23, 29, 31, 37]

/-- DEFAULT_ROUNDS (R7). -/
def defaultRounds : Nat := 40

/-- MIN_PRIME_BITS (R7). -/
def minPrimeBits : Nat := 16

/-- Trial division (R120, R121): the verdict of the first listed prime that equals or divides `n`, if one does. -/
def trialDivision (n : Nat) : List Nat → Option Bool
  | [] => none
  | p :: ps => if n = p then some true else if n % p = 0 then some false else trialDivision n ps

/-- Takes factors 2 out of `d`, counting them in `s`; `fuel` bounds their number. -/
def halvings : Nat → Nat → Nat → Nat × Nat
  | 0, s, d => (s, d)
  | fuel + 1, s, d => if d % 2 = 0 then halvings fuel (s + 1) (d / 2) else (s, d)

/-- The `(s, d)` with `m = 2^s * d` and `d` odd, for `m > 0` (R120). -/
def oddPart (m : Nat) : Nat × Nat := halvings (bitLength m) 0 m

/-- The squaring loop of R122: up to `c` squares of `x`, true when one is `n - 1`. -/
def squareChain (n : Nat) : Nat → Nat → Bool
  | 0, _ => false
  | c + 1, x => if x * x % n = n - 1 then true else squareChain n c (x * x % n)

/-- `MRround(n, s, d, a)` of R122. -/
def millerRabinRound (n s d a : Nat) : Bool :=
  let x := modPower a d n
  if x = 1 ∨ x = n - 1 then true else squareChain n (s - 1) x

/-- The round loop of R120: one draw at the start of each round, no draw after a round that fails (R123). -/
def millerRabinRounds (src : Nat → Nat) (n s d : Nat) : Nat → Nat → Bool × Nat
  | 0, k => (true, k)
  | rounds + 1, k =>
    if millerRabinRound n s d (randRange (src k) 2 (n - 2)) then millerRabinRounds src n s d rounds (k + 1)
    else (false, k + 1)

/-- `isProbablePrime(n, rounds)` of R120. -/
def isProbablePrime (src : Nat → Nat) (n rounds k : Nat) : Bool × Nat :=
  if n < 2 then (false, k)
  else
    match trialDivision n smallPrimes with
    | some verdict => (verdict, k)
    | none => millerRabinRounds src n (oddPart (n - 1)).1 (oddPart (n - 1)).2 rounds k

/-- ISPRIME (R120). -/
def execIsprime (rd rs1 rs2 : XReg) (s : State) : Host.Outcome State Fault Refusal :=
  let r := isProbablePrime s.upcoming (s.readX rs1) (s.readX rs2) 0
  completeX rd (.ok r.1.toNat) r.2 s

/-- The candidate of R125 formed from the drawn number `c`: top bit and bottom bit set. -/
def candidate (bits c : Nat) : Nat := c ||| 2 ^ (bits - 1) ||| 1

/-- GENPRIME (R125, R126). One engine turn tries one candidate: an accepted one completes the command; after a rejected one the command is
still pending, its draws taken, and the engine's next turn tries the next candidate, so that a draw sequence with no accepted
candidate leaves BUSY = 1 for ever (log 7). -/
def execGenprime (rd rs1 : XReg) (s : State) : Host.Outcome State Fault Refusal :=
  let bits := s.readX rs1
  if bits < minPrimeBits then completeX rd (.error .badParameter) 0 s
  else if 8 * s.cfg.xBytes < bits then completeX rd (.error .rangeError) 0 s
  else
    let cand := candidate bits (randRange (s.upcoming 0) 0 (2 ^ bits - 1))
    let r := isProbablePrime s.upcoming cand defaultRounds 1
    if r.1 then completeX rd (.ok cand) r.2 s else .next (s.takeDraws r.2)

end Sys2Proof.Machine
end

