-- ==== Sys2Proof/Machine/Dispatch.lean ====
section
/-! DEFINITION. One arm per command: the completion of the command on the state it finds (44_command_control.md R192). -/

namespace Sys2Proof.Machine

def exec (i : Instr) (s : State) : Host.Outcome State Fault Refusal :=
  match i with
  | .gcd rd rs1 rs2 => Sys2Proof.Machine.execGcd rd rs1 rs2 s
  | .modinv rd rs1 rs2 => Sys2Proof.Machine.execModinv rd rs1 rs2 s
  | .modexp rd rs1 rs2 rs3 => Sys2Proof.Machine.execModexp rd rs1 rs2 rs3 s
  | .bytelen rd rs1 => Sys2Proof.Machine.execBytelen rd rs1 s
  | .isprime rd rs1 rs2 => Sys2Proof.Machine.execIsprime rd rs1 rs2 s
  | .genprime rd rs1 => Sys2Proof.Machine.execGenprime rd rs1 s
  | .mgf1 rd rs1 rs2 => Sys2Proof.Machine.execMgf1 rd rs1 rs2 s
  | .oaepenc rd rs1 rs2 rs3 => Sys2Proof.Machine.execOaepenc rd rs1 rs2 rs3 s
  | .oaepdec rd rs1 rs2 rs3 => Sys2Proof.Machine.execOaepdec rd rs1 rs2 rs3 s
  | .pssenc rd rs1 rs2 rs3 => Sys2Proof.Machine.execPssenc rd rs1 rs2 rs3 s
  | .pssver rd rs1 rs2 rs3 rs4 => Sys2Proof.Machine.execPssver rd rs1 rs2 rs3 rs4 s
  | .os2ip rd rs1 => Sys2Proof.Machine.execOs2ip rd rs1 s
  | .i2osp rd rs1 rs2 => Sys2Proof.Machine.execI2osp rd rs1 rs2 s

end Sys2Proof.Machine
end

