-- ==== Sys2Proof/Machine/Port.lean ====
section
/-! DEFINITION. The host window (20_memory.md): its map, its access rules, and the effect of one host access. -/

namespace Sys2Proof.Machine

/-- What stands at an offset of the host window (R52). A control register stands at its exact offset only (R53). -/
inductive Region where
  | cmd
  | status
  | ctrl
  | blen (j : BReg)
  /-- Byte `o` of the window of `X[i]`, or of its slot beyond the window. -/
  | xWindow (i : XReg) (o : Nat)
  /-- Byte `o` of the data array of buffer `j`, or of its slot beyond the array. -/
  | bWindow (j : BReg) (o : Nat)
  | reserved
deriving DecidableEq, Repr

/-- Size of the host window in bytes (R50). -/
def windowSize : Nat := 0x140000

/-- The map of R52. -/
def regionAt (off : Nat) : Region :=
  if off = 0x000000 then .cmd
  else if off = 0x000004 then .status
  else if off = 0x000008 then .ctrl
  else if 0x000010 ≤ off ∧ off < 0x000020 ∧ off % 4 = 0 then .blen (Fin.ofNat 4 ((off - 0x000010) / 4))
  else if 0x010000 ≤ off ∧ off < 0x090000 then .xWindow (Fin.ofNat 8 (off / 0x10000 - 1)) (off % 0x10000)
  else if 0x100000 ≤ off ∧ off < 0x140000 then .bWindow (Fin.ofNat 4 (off / 0x10000 - 16)) (off % 0x10000)
  else .reserved

/-- The window offset of an access to the engine; `none` for an access that is none (R51): outside the window, or of a width other
than 1, 2 and 4. -/
def accessOffset (P : Config.Params) (addr n : Nat) : Option Nat :=
  if (n = 1 ∨ n = 2 ∨ n = 4) ∧ P.base ≤ addr ∧ addr < P.base + windowSize then some (addr - P.base) else none


/-- The bytes `X[i]` shows in its window (R54). -/
def State.windowBytes (s : State) (i : XReg) : List Byte := i2osp (s.readX i) s.cfg.xBytes

/-- The bytes of `w` with those from index `o` replaced by `new`. -/
def splice (w : List Byte) (o : Nat) (new : List Byte) : List Byte := w.take o ++ new ++ w.drop (o + new.length)

/-- Issue of command word `w` once the write to CMD is accepted (44_command_control.md R190, R191). -/
def State.issue (s : State) (w : Word) : State :=
  match decode w with
  | .ok _ => { s with pend := w, busy := true }
  | .error _ => { s with pend := w }.raise .illegalCommand

/-- What an admitted read of width `n` at offset `off` returns; `none` for a refused one (R58). -/
def State.readPort (s : State) (off n : Nat) : Option Nat :=
  match regionAt off with
  | .cmd => if n = 4 then some s.pend.toNat else none
  | .status => if n = 4 then some s.statusWord.toNat else none
  | .ctrl => if n = 4 then some 0 else none
  | .blen j => if n = 4 ∧ s.busy = false then some (s.readLen j) else none
  | .xWindow i o =>
    if s.busy = false ∧ off % n = 0 ∧ o + n ≤ s.cfg.xBytes then some (os2ip (slice (s.windowBytes i) o (o + n))) else none
  | .bWindow j o =>
    if s.busy = false ∧ off % n = 0 ∧ o + n ≤ s.cfg.bufBytes then
      some (os2ip (Memory.readBytes s.mem (bufferBase j + o) n))
    else none
  | .reserved => none

/-- The effect of an admitted write of the low `n` bytes of `v` at offset `off`; `none` for a refused one (R58). -/
def State.writePort (s : State) (off n : Nat) (v : Word) : Option State :=
  match regionAt off with
  | .cmd => if n = 4 ∧ s.busy = false ∧ s.err = none then some (s.issue v) else none
  | .status => none
  | .ctrl => if n = 4 then some (s.acknowledge v) else none
  | .blen j => if n = 4 ∧ s.busy = false ∧ v.toNat ≤ s.cfg.bufBytes then some (s.writeLen j v.toNat) else none
  | .xWindow i o =>
    if s.busy = false ∧ off % n = 0 ∧ o + n ≤ s.cfg.xBytes then
      some (s.writeX i (os2ip (splice (s.windowBytes i) o (i2osp v.toNat n))))
    else none
  | .bWindow j o =>
    if s.busy = false ∧ off % n = 0 ∧ o + n ≤ s.cfg.bufBytes then
      some { s with mem := Memory.writeBytes s.mem (bufferBase j + o) (i2osp v.toNat n) }
    else none
  | .reserved => none

/-- A host read (R50). A refused read sets HERR and returns any `n`-byte value (R58; log 5); a read that is no access to the engine
leaves the engine as it is, and what it returns is the platform's (R51; log 6). -/
def State.hostRead (s : State) (addr n : Nat) : State :=
  match accessOffset s.cfg addr n with
  | none => { s with rdata := BitVec.ofNat 32 (Config.platformRead s.drawn), drawn := s.drawn + 1 }
  | some off =>
    match s.readPort off n with
    | some v => { s with rdata := BitVec.ofNat 32 v }
    | none =>
      { s with
        herr := true
        rdata := BitVec.ofNat 32 (Config.refusedRead s.drawn % 256 ^ n)
        drawn := s.drawn + 1 }

/-- A host write (R50). A refused write sets HERR and changes nothing else (R58); a write that is no access to the engine leaves the
engine as it is (R51; log 6). -/
def State.hostWrite (s : State) (addr n : Nat) (v : Word) : State :=
  match accessOffset s.cfg addr n with
  | none => s
  | some off =>
    match s.writePort off n v with
    | some t => t
    | none => { s with herr := true }

end Sys2Proof.Machine
end

