-- ==== Sys2Proof/Machine/Step.lean ====
section
/-! DEFINITION. One step of the whole: the next event of the total order of 20_memory.md R61, or, with none at the port, the engine's
own step. -/

namespace Sys2Proof.Machine

/-- The engine's turn: with BUSY = 1 it completes the pending command (44_command_control.md R192); with BUSY = 0 it has no step and
everything stays (60_exceptions.md R270). -/
def engineTurn (s : State) : Host.Outcome State Fault Refusal :=
  if s.busy then
    match decode s.pend with
    | .ok i => exec i s
    | .error _ => .fault .pendingIllegal
  else .next s

/-- One step. WAIT stays at the head of the port while the engine is busy, which takes its turns, and then reads STATUS
(30_encoding.md R89). With nothing at the port a pending command completes (44_command_control.md R195). -/
def step (s : State) : Host.Outcome State Fault Refusal :=
  match s.port with
  | [] => engineTurn s
  | .read addr n :: rest => .next (State.hostRead { s with port := rest } addr n)
  | .write addr n v :: rest => .next (State.hostWrite { s with port := rest } addr n v)
  | .engine :: rest => engineTurn { s with port := rest }
  | .wait :: rest =>
    if s.busy then engineTurn s else .next (State.hostRead { s with port := rest } (s.cfg.base + 0x000004) 4)
  | .reset :: rest => .next (State.resetEvent { s with port := rest })

/-- `s` with the word numbered `w` by the opcode table placed so that the very next step runs it: a legal word as the pending command
with the engine's turn next, an illegal one as the next write to CMD, accepted, which is where an illegal word is judged (44_command_control.md
R191; log 8). -/
def State.withFetchWord (s : State) (nbits w : Nat) : State :=
  match decode (tableWord nbits w) with
  | .ok _ => { s with pend := tableWord nbits w, busy := true, err := none, port := .engine :: s.port }
  | .error _ =>
    { s with busy := false, err := none, port := .write s.cfg.base 4 (tableWord nbits w) :: s.port }

end Sys2Proof.Machine
end

