-- ==== Sys2Proof/Machine/Script.lean ====
section
/-! DEFINITION. The host script notation of 30_encoding.md R89: the host accesses each line expands to, and the running of a line, with
what it gives the host. The accesses go through `step`, one after the other; the host sees `rdata` after each. -/

namespace Sys2Proof.Machine

/-- The platform address of the window of `X[i]` (20_memory.md R52). -/
def xAddress (P : Config.Params) (i : XReg) : Nat := P.base + 0x10000 * (i.val + 1)

/-- The platform address of the data array of buffer `j` (R52). -/
def bAddress (P : Config.Params) (j : BReg) : Nat := P.base + bufferBase j

/-- The platform address of BLEN[j] (R52). -/
def lenAddress (P : Config.Params) (j : BReg) : Nat := P.base + 0x000010 + 4 * j.val

/-- The offsets and widths by which WRX and RDX go through a register window: whole words first, then the at most 3 bytes left. -/
def windowPieces (P : Config.Params) : List (Nat × Nat) :=
  (List.range (P.xBytes / 4)).map (fun q => (4 * q, 4)) ++
    (List.range (P.xBytes % 4)).map (fun r => (4 * (P.xBytes / 4) + r, 1))

/-- `WRX Xi, v`. -/
def scriptWrx (P : Config.Params) (i : XReg) (v : Nat) : List Event :=
  (windowPieces P).map fun p =>
    .write (xAddress P i + p.1) p.2 (BitVec.ofNat 32 (os2ip (slice (i2osp v P.xBytes) p.1 (p.1 + p.2))))

/-- `WRB Bj, v`. -/
def scriptWrb (P : Config.Params) (j : BReg) (v : List Byte) : List Event :=
  (List.range v.length).map (fun o => .write (bAddress P j + o) 1 ((v.getD o 0).setWidth 32)) ++
    [.write (lenAddress P j) 4 (BitVec.ofNat 32 v.length)]

/-- A command line: the write of its word to CMD. -/
def scriptCommand (P : Config.Params) (i : Instr) : List Event := [.write P.base 4 (encode i)]

/-- `WAIT`. -/
def scriptWait : List Event := [.wait]

/-- `RDX Xi`. -/
def scriptRdx (P : Config.Params) (i : XReg) : List Event :=
  (windowPieces P).map fun p => .read (xAddress P i + p.1) p.2

/-- The first access of `RDB Bj`, whose answer is `L`. -/
def scriptRdbLength (P : Config.Params) (j : BReg) : List Event := [.read (lenAddress P j) 4]

/-- The accesses of `RDB Bj` after the first, which has answered `len`. -/
def scriptRdbBytes (P : Config.Params) (j : BReg) (len : Nat) : List Event :=
  (List.range len).map fun o => .read (bAddress P j + o) 1

/-- All accesses of an `RDB Bj` whose first has answered `len`. -/
def scriptRdb (P : Config.Params) (j : BReg) (len : Nat) : List Event := scriptRdbLength P j ++ scriptRdbBytes P j len

/-- `ACK`. -/
def scriptAck (P : Config.Params) : List Event := [.write (P.base + 0x000008) 4 0x00000003]

/-- `ERR?`: bits 15:8 of the value this read returns. -/
def scriptErr (P : Config.Params) : List Event := [.read (P.base + 0x000004) 4]

/-! ### What the host makes of the values it has read -/

/-- The number `RDX` gives, from the values its reads returned: mirror image of `WRX`. -/
def numberRead (P : Config.Params) (values : List Word) : Nat :=
  os2ip (((windowPieces P).zip values).flatMap fun p => i2osp p.2.toNat p.1.2)

/-- The string `RDB` gives, from the values its single-byte reads returned. -/
def stringRead (values : List Word) : List Byte := values.map fun v => v.setWidth 8

/-- The code `ERR?` gives: bits 15:8 of the status it read. -/
def errField (status : Word) : BitVec 8 := status.extractLsb' 8 8

/-! ### Running a script -/

/-- A line of a host script. -/
inductive Line where
  | wrx (i : XReg) (v : Nat)
  | wrb (j : BReg) (v : List Byte)
  | command (i : Instr)
  | wait
  | rdx (i : XReg)
  | rdb (j : BReg)
  | ack
  | err
deriving DecidableEq, Repr

/-- What a line gives the host. -/
inductive Observed where
  /-- A line that reads nothing. -/
  | nothing
  /-- WAIT: the observed status. -/
  | status (w : Word)
  /-- WAIT that has not ended within the engine turns it was given (log 2). -/
  | pending
  /-- RDX: the number. -/
  | number (n : Nat)
  /-- RDB: the string. -/
  | string (v : List Byte)
  /-- ERR?: the failure code. -/
  | code (c : BitVec 8)
deriving DecidableEq, Repr

/-- Goes on from a next state; a stop stays a stop. -/
def andThen {α β : Type} (o : Host.Outcome α Fault Refusal) (f : α → Host.Outcome β Fault Refusal) :
    Host.Outcome β Fault Refusal :=
  match o with
  | .next a => f a
  | .fault r => .fault r
  | .refused r => .refused r

/-- The step that takes the event `e`, put before whatever else is at the port (DESIGN CHOICE, safe; log 2). -/
def State.arrive (s : State) (e : Event) : Host.Outcome State Fault Refusal := step { s with port := e :: s.port }

/-- The host performs accesses one after the other: the state they leave, and what `rdata` held after each. -/
def perform : List Event → State → Host.Outcome (State × List Word) Fault Refusal
  | [], s => .next (s, [])
  | e :: rest, s => andThen (s.arrive e) fun t => andThen (perform rest t) fun r => .next (r.1, t.rdata :: r.2)

/-- `WAIT`, for at most `turns` turns of the engine (DESIGN CHOICE, safe; log 2); the last status read is what it observes. -/
def await : Nat → State → Host.Outcome (State × Observed) Fault Refusal
  | 0, s => if s.busy then .next (s, .pending) else andThen (s.arrive .wait) fun t => .next (t, .status t.rdata)
  | turns + 1, s =>
    if s.busy then andThen (s.arrive .wait) fun t => await turns { t with port := s.port }
    else andThen (s.arrive .wait) fun t => .next (t, .status t.rdata)

/-- One line: its accesses, and what it gives the host. `RDB` takes its number of byte reads from the answer of its first read. -/
def runLine (turns : Nat) (line : Line) (s : State) : Host.Outcome (State × Observed) Fault Refusal :=
  match line with
  | .wrx i v => andThen (perform (scriptWrx s.cfg i v) s) fun r => .next (r.1, .nothing)
  | .wrb j v => andThen (perform (scriptWrb s.cfg j v) s) fun r => .next (r.1, .nothing)
  | .command i => andThen (perform (scriptCommand s.cfg i) s) fun r => .next (r.1, .nothing)
  | .wait => await turns s
  | .rdx i => andThen (perform (scriptRdx s.cfg i) s) fun r => .next (r.1, .number (numberRead s.cfg r.2))
  | .rdb j =>
    andThen (perform (scriptRdbLength s.cfg j) s) fun l =>
      andThen (perform (scriptRdbBytes s.cfg j l.1.rdata.toNat) l.1) fun r => .next (r.1, .string (stringRead r.2))
  | .ack => andThen (perform (scriptAck s.cfg) s) fun r => .next (r.1, .nothing)
  | .err => andThen (perform (scriptErr s.cfg) s) fun r => .next (r.1, .code (errField r.1.rdata))

/-- A straight script: its lines in order, and what each gives the host. Branches on what was observed are the host's own. -/
def runScript (turns : Nat) : List Line → State → Host.Outcome (State × List Observed) Fault Refusal
  | [], s => .next (s, [])
  | line :: rest, s =>
    andThen (runLine turns line s) fun r => andThen (runScript turns rest r.1) fun q => .next (q.1, r.2 :: q.2)

end Sys2Proof.Machine
end

