-- ==== Sys2Proof/Safety.lean ====
section
/-! DEFINITION. What claims call a sound state: the invariants of every reachable state (10_state.md R34), the form of the model's own
memory, what each command may write which failures it may raise and what a padding
command may leave of its work, and the end of a run (70_reset_and_hazards.md R283). -/

namespace Sys2Proof.Machine

/-- Every integer register is below 2^(8*XBYTES) (R21, R34). -/
def State.registersFit (s : State) : Prop := ∀ i : XReg, s.readX i < 2 ^ (8 * s.cfg.xBytes)

/-- Every length register is at most BUFBYTES (R25, R34). -/
def State.lengthsFit (s : State) : Prop := ∀ j : BReg, s.readLen j ≤ s.cfg.bufBytes

/-- BUSY = 1 implies ERR = 0 (R28, R34). -/
def State.busyClean (s : State) : Prop := s.busy = true → s.err = none

/-- BUSY = 1 implies that PEND is a legal command word (R34, 30_encoding.md R86). -/
def State.pendingLegal (s : State) : Prop := s.busy = true → ∃ i, decode s.pend = .ok i

/-- The memory is in its canonical form and every cell lies in the data array of some buffer (R25; the form is the model's own). -/
def State.memoryFits (s : State) : Prop :=
  Memory.wf s.mem = true ∧
    ∀ c ∈ s.mem, ∃ j : BReg, bufferBase j ≤ c.1 ∧ c.1 < bufferBase j + s.cfg.bufBytes

/-- The four invariants of R34 together. -/
def State.Inv (s : State) : Prop := s.registersFit ∧ s.lengthsFit ∧ s.busyClean ∧ s.pendingLegal

/-- The X destination of a command (10_state.md R22). -/
def destX : Instr → Option XReg
  | .gcd rd _ _ | .modinv rd _ _ | .modexp rd _ _ _ | .bytelen rd _ | .isprime rd _ _ | .genprime rd _
  | .pssver rd _ _ _ _ | .os2ip rd _ => some rd
  | .mgf1 _ _ _ | .oaepenc _ _ _ _ | .oaepdec _ _ _ _ | .pssenc _ _ _ _ | .i2osp _ _ _ => none

/-- The B destination of a command (10_state.md R26). -/
def destB : Instr → Option BReg
  | .mgf1 rd _ _ | .oaepenc rd _ _ _ | .oaepdec rd _ _ _ | .pssenc rd _ _ _ | .i2osp rd _ _ => some rd
  | .gcd _ _ _ | .modinv _ _ _ | .modexp _ _ _ _ | .bytelen _ _ | .isprime _ _ _ | .genprime _ _
  | .pssver _ _ _ _ _ | .os2ip _ _ => none

/-- The failures each command can raise (60_exceptions.md R269). -/
def failureMatrix : Instr → List Failure
  | .gcd _ _ _ => []
  | .modinv _ _ _ => [.zeroModulus, .noInverse]
  | .modexp _ _ _ _ => [.zeroModulus]
  | .bytelen _ _ => []
  | .isprime _ _ _ => []
  | .genprime _ _ => [.badParameter, .rangeError]
  | .mgf1 _ _ _ => [.rangeError]
  | .oaepenc _ _ _ _ => [.rangeError, .messageTooLarge]
  | .oaepdec _ _ _ _ => [.paddingError]
  | .pssenc _ _ _ _ => [.rangeError, .paddingError]
  | .pssver _ _ _ _ _ => []
  | .os2ip _ _ => [.rangeError]
  | .i2osp _ _ _ => [.rangeError]

/-- The padding commands: the opcodes 0x20 to 0x24 (30_encoding.md R83). -/
def isPadding : Instr → Bool
  | .mgf1 _ _ _ | .oaepenc _ _ _ _ | .oaepdec _ _ _ _ | .pssenc _ _ _ _ | .pssver _ _ _ _ _ => true
  | .gcd _ _ _ | .modinv _ _ _ | .modexp _ _ _ _ | .bytelen _ _ | .isprime _ _ _ | .genprime _ _ | .os2ip _ _
  | .i2osp _ _ _ => false

/-- All that a padding command may leave of its work: the code of a failure, or its result in its destination. The working values (seed,
DB, mask, salt, hash) stand nowhere else: 60_exceptions.md R266 ("must not expose intermediate padding values in any case"), R255,
10_state.md R32. -/
inductive PaddingLeaves (s : State) : Instr → State → Prop where
  | failure (i : Instr) (e : Failure) (h : e ∈ failureMatrix i) : PaddingLeaves s i (s.raise e)
  | mask (rd rs1 : BReg) (rs2 : XReg) :
      PaddingLeaves s (.mgf1 rd rs1 rs2)
        ((s.takeDraws 0).writeB rd (mgf1 (Config.hash s.cfg) (s.readB rs1) (s.readX rs2))).finish
  | oaepBlock (rd rs1 rs2 : BReg) (rs3 : XReg) :
      PaddingLeaves s (.oaepenc rd rs1 rs2 rs3)
        ((s.takeDraws 1).writeB rd (Machine.oaepBlock (Config.hash s.cfg) s.cfg.hLen (s.readB rs1) (s.readB rs2) (s.readX rs3)
          (randBytes (s.upcoming 0) s.cfg.hLen))).finish
  | message (rd rs1 rs2 : BReg) (rs3 : XReg) (m : List Byte)
      (h : oaepMessage (Config.hash s.cfg) s.cfg.hLen (s.readB rs1) (s.readB rs2) (s.readX rs3) = some m) :
      PaddingLeaves s (.oaepdec rd rs1 rs2 rs3) ((s.takeDraws 0).writeB rd m).finish
  | pssBlock (rd rs1 : BReg) (rs2 rs3 : XReg) :
      PaddingLeaves s (.pssenc rd rs1 rs2 rs3)
        ((s.takeDraws (if s.readX rs3 = 0 then 0 else 1)).writeB rd (Machine.pssBlock (Config.hash s.cfg) s.cfg.hLen
          (s.readB rs1) (s.readX rs2) (randBytes (s.upcoming 0) (s.readX rs3)))).finish
  | verdict (rd : XReg) (rs1 rs2 : BReg) (rs3 rs4 : XReg) :
      PaddingLeaves s (.pssver rd rs1 rs2 rs3 rs4)
        ((s.takeDraws 0).writeX rd (pssConsistent (Config.hash s.cfg) s.cfg.hLen (s.readB rs1) (s.readB rs2)
          (s.readX rs3) (s.readX rs4)).toNat).finish

/-- The events that are an action of the host (R283): its accesses and WAIT, which is reads of STATUS (30_encoding.md R89). A turn is the
engine's, and reset is the platform's (R280). -/
def Event.isHostAction : Event → Bool
  | .read _ _ | .write _ _ _ | .wait => true
  | .engine | .reset => false

/-- The host has taken its last action and the engine is idle (R283). DESIGN CHOICE, safe (log 9): the last action is taken when no
action of the host is left at the port; engine turns and resets may still stand there. -/
def State.runEnded (s : State) : Prop := (∀ e ∈ s.port, e.isHostAction = false) ∧ s.busy = false

end Sys2Proof.Machine
end

