-- ==== Sys2Proof/Certificates/Slice0/Obligations.lean ====
section
/-! DEFINITION. The statements for the provers, taken from the numbered rules of spec/. `next` in a title means the step answers a next
state. -/

namespace Sys2Proof.Claims

open Sys2Proof.Machine

/-- The outcomes of a step of this machine. -/
abbrev Result := Host.Outcome State Fault Refusal

/-- Completion with value `v` in `X[rd]` after `k` draws (44_command_control.md R192, R194): the destination and BUSY change, and the
draws are taken; every other field of the state is as before. -/
def doneX (s : State) (rd : XReg) (v k : Nat) : State := ((s.takeDraws k).writeX rd v).finish

/-- Completion with value `v` in `B[rd]` after `k` draws (R192, R194). -/
def doneB (s : State) (rd : BReg) (v : List Byte) (k : Nat) : State := ((s.takeDraws k).writeB rd v).finish

/-- A prime that trial division uses: "primes up to 37" (41_primality.md R120, R121). -/
def smallPrime (p : Nat) : Prop := p.Prime ∧ p ≤ 37

/-- `a` passes the Miller-Rabin round for `n` (41_primality.md R122): `a^d = 1` or `a^(2^j*d) = n-1` modulo `n` for some
`j < s`, where `n - 1 = 2^s * d` with `d` odd. -/
def passesRound (n a : Nat) : Prop :=
  ∃ s d, n - 1 = 2 ^ s * d ∧ d % 2 = 1 ∧ (a ^ d % n = 1 ∨ ∃ j < s, a ^ (2 ^ j * d) % n = n - 1)

/-- The witness of round `j`: the draw `RandRange(2, n-2)` (R120, R123). -/
def witness (s : State) (n j : Nat) : Nat := randRange (s.upcoming j) 2 (n - 2)

/-- The first candidate of a GENPRIME of `bits` bits (R125). -/
def firstCandidate (s : State) (bits : Nat) : Nat :=
  randRange (s.upcoming 0) 0 (2 ^ bits - 1) ||| 2 ^ (bits - 1) ||| 1

/-- The witness of round `j` for that candidate: its draw comes after the candidate's own (R123, R125). -/
def candidateWitness (s : State) (bits j : Nat) : Nat :=
  randRange (s.upcoming (1 + j)) 2 (firstCandidate s bits - 2)

/-- An access of width `n` to a data window that 20_memory.md R53 refuses: misaligned, or not wholly in the `size` bytes. -/
def badDataAccess (off o n size : Nat) : Prop := off % n ≠ 0 ∨ size < o + n

/-- The reads of R58's list: reserved ranges, width, alignment and range violations of R53, and while BUSY = 1 the data windows
and BLEN. -/
def refusedRead (s : State) (off n : Nat) : Prop :=
  match regionAt off with
  | .cmd => n ≠ 4
  | .status => n ≠ 4
  | .ctrl => n ≠ 4
  | .blen _ => n ≠ 4 ∨ s.busy = true
  | .xWindow _ o => badDataAccess off o n s.cfg.xBytes ∨ s.busy = true
  | .bWindow _ o => badDataAccess off o n s.cfg.bufBytes ∨ s.busy = true
  | .reserved => True

/-- The writes of R58's list: as for reads, and any write to STATUS, a length above BUFBYTES, and a write to CMD while BUSY = 1 or
ERR is not 0. -/
def refusedWrite (s : State) (off n : Nat) (v : Word) : Prop :=
  match regionAt off with
  | .cmd => n ≠ 4 ∨ s.busy = true ∨ s.err ≠ none
  | .status => True
  | .ctrl => n ≠ 4
  | .blen _ => n ≠ 4 ∨ s.busy = true ∨ s.cfg.bufBytes < v.toNat
  | .xWindow _ o => badDataAccess off o n s.cfg.xBytes ∨ s.busy = true
  | .bWindow _ o => badDataAccess off o n s.cfg.bufBytes ∨ s.busy = true
  | .reserved => True

/-- An OAEP encoding of `m` under label `l` in `k` bytes (42_padding.md R150): what OAEPENC can make for some seed. -/
def isOaepBlock (P : Config.Params) (m l : List Byte) (k : Nat) (em : List Byte) : Prop :=
  m.length + 2 * P.hLen + 2 ≤ k ∧
    ∃ seed : List Byte, seed.length = P.hLen ∧ em = oaepBlock (Config.hash P) P.hLen m l k seed

/-- A PSS encoding of `m` in `emBits` bits with `sLen` salt bytes (42_padding.md R160): what PSSENC can make for some salt. -/
def isPssBlock (P : Config.Params) (m : List Byte) (emBits sLen : Nat) (em : List Byte) : Prop :=
  P.hLen + sLen + 2 ≤ (emBits + 7) / 8 ∧
    ∃ salt : List Byte, salt.length = sLen ∧ em = pssBlock (Config.hash P) P.hLen m emBits salt

end Sys2Proof.Claims

section

open Sys2Proof Sys2Proof.Machine Sys2Proof.Claims

/-! ### Encoding (30_encoding.md) -/

/-- R84, R85: the decoder reads back every command from the word R85 assembles for it, at every value of every operand. -/
def Obligations.DecodeOfEncode : Prop := ∀ i : Instr, decode (encode i) = .ok i

/-- R86, R87: a legal word has one reading only; nothing of it is ignored. -/
def Obligations.EncodeOfDecode : Prop := ∀ (w : Word) (i : Instr), decode w = .ok i → encode i = w

/-- R81, R86: the masks of R84 hold exactly the conditions of R81 on the fields of a word. -/
def Obligations.LegalIsWellFormed : Prop :=
  ∀ w : Word, (∃ i, decode w = .ok i) ↔ (FormatC.ofWord w).wellFormed = true

/-- R84, R85: one word of each command, written out from the table. -/
def Obligations.TableWordsDecode : Prop :=
  decode 0x00010201 = .ok (.gcd 2 0 1) ∧ decode 0x00010302 = .ok (.modinv 3 0 1) ∧
  decode 0x00210303 = .ok (.modexp 3 0 1 2) ∧ decode 0x00002404 = .ok (.bytelen 4 2) ∧
  decode 0x00020110 = .ok (.isprime 1 0 2) ∧ decode 0x00001011 = .ok (.genprime 0 1) ∧
  decode 0x00073320 = .ok (.mgf1 3 3 7) ∧ decode 0x00420121 = .ok (.oaepenc 1 0 2 4) ∧
  decode 0x00421022 = .ok (.oaepdec 0 1 2 4) ∧ decode 0x00650123 = .ok (.pssenc 1 0 5 6) ∧
  decode 0x06510724 = .ok (.pssver 7 0 1 5 6) ∧ decode 0x00001330 = .ok (.os2ip 3 1) ∧
  decode 0x00043131 = .ok (.i2osp 1 3 4)

/-! ### Numbers and strings (00_scope.md) -/

/-- R12: `bitLength` is 0 at 0 and otherwise the unique `L` with `2^(L-1) <= n < 2^L`; `byteLen` is `ceil(bitLength/8)`. -/
def Obligations.LengthsOfNumbers : Prop :=
  bitLength 0 = 0 ∧
  (∀ n : Nat, 0 < n → ∀ L : Nat, (0 < L ∧ 2 ^ (L - 1) ≤ n ∧ n < 2 ^ L) ↔ L = bitLength n) ∧
  (∀ n : Nat, byteLen n = (bitLength n + 7) / 8) ∧
  byteLen 0 = 0 ∧ byteLen 255 = 1 ∧ byteLen 256 = 2

/-- R11: `OS2IP` is the big-endian value; `I2OSP(v, n)` for `v < 256^n` is the unique string of length `n` with that value. -/
def Obligations.IntegersAndStrings : Prop :=
  os2ip [] = 0 ∧
  (∀ (t : List Byte) (b : Byte), os2ip (t ++ [b]) = 256 * os2ip t + b.toNat) ∧
  (∀ v n : Nat, v < 256 ^ n → ∀ t : List Byte, (t.length = n ∧ os2ip t = v) ↔ t = i2osp v n)

/-! ### Registers and buffers (10_state.md) -/

/-- R15, R21: a written register reads back, and no other register changes. -/
def Obligations.RegisterWrite : Prop :=
  ∀ (s : State) (i j : XReg) (v : Nat), (s.writeX i v).readX j = if j = i then v else s.readX j

/-- R25, R26: a buffer write sets BLEN and the bytes, zeroes the rest of the array, and touches nothing else: no other byte or length,
no register, no control or status field, nothing outside the engine. -/
def Obligations.BufferWrite : Prop :=
  ∀ (s : State) (j : BReg) (v : List Byte), v.length ≤ s.cfg.bufBytes →
    (s.writeB j v).readB j = v ∧ (s.writeB j v).readLen j = v.length ∧
    (∀ o < v.length, (s.writeB j v).readData j o = v.getD o 0) ∧
    (∀ o, v.length ≤ o → o < s.cfg.bufBytes → (s.writeB j v).readData j o = 0) ∧
    (∀ k, k ≠ j → (s.writeB j v).readLen k = s.readLen k) ∧
    (∀ a, (a < bufferBase j ∨ bufferBase j + s.cfg.bufBytes ≤ a) →
      Memory.read (s.writeB j v).mem a = Memory.read s.mem a) ∧
    (∀ i, (s.writeB j v).readX i = s.readX i) ∧ (s.writeB j v).pend = s.pend ∧ (s.writeB j v).busy = s.busy ∧
    (s.writeB j v).herr = s.herr ∧ (s.writeB j v).err = s.err ∧ (s.writeB j v).cfg = s.cfg ∧
    (s.writeB j v).port = s.port ∧ (s.writeB j v).rdata = s.rdata ∧ (s.writeB j v).draws = s.draws ∧
    (s.writeB j v).drawn = s.drawn

/-! ### Reset (10_state.md R33, 70_reset_and_hazards.md R280, R281) -/

/-- R33: after reset every item of the architectural state is 0. -/
def Obligations.ResetLeavesZero : Prop :=
  (∀ i, State.reset.readX i = 0) ∧ (∀ j o, State.reset.readData j o = 0) ∧ (∀ j, State.reset.readLen j = 0) ∧
  State.reset.pend = 0 ∧ State.reset.busy = false ∧ State.reset.herr = false ∧ State.reset.err = none

/-- R280, R281: the reset event brings every item to its reset value, whatever was pending; no failure is recorded. What lies
outside the engine is kept, which is the model's choice (log 2, 3, 4). -/
def Obligations.ResetEventAbandons : Prop :=
  ∀ (s : State) (rest : List Event), s.port = .reset :: rest →
    ∃ t, step s = .next t ∧
      (∀ i, t.readX i = 0) ∧ (∀ j o, t.readData j o = 0) ∧ (∀ j, t.readLen j = 0) ∧
      t.pend = 0 ∧ t.busy = false ∧ t.herr = false ∧ t.err = none ∧
      t.cfg = s.cfg ∧ t.port = rest ∧ t.draws = s.draws ∧ t.drawn = s.drawn ∧ t.rdata = s.rdata

/-! ### Invariants (10_state.md R34) -/

/-- R33, R34: the invariants hold at reset, and its memory has the canonical form. -/
def Obligations.InvariantAtReset : Prop := State.reset.Inv ∧ State.reset.memoryFits

/-- R34: every step keeps the four invariants. -/
def Obligations.InvariantKept : Prop := ∀ s t : State, s.Inv → step s = .next t → t.Inv

/-- The canonical form of the model's memory (10_state.md R25 for the bytes there are) is kept by every step. -/
def Obligations.MemoryFormKept : Prop :=
  ∀ s t : State, s.Inv → s.memoryFits → step s = .next t → t.memoryFits

/-- R34: the invariants hold in every state that some events and some draws lead to from reset, under every configuration. -/
def Obligations.InvariantReachable : Prop :=
  ∀ (P : Config.Params) (events : List Event) (draws : List Nat) (k : Nat) (t : State),
    core.run k ({ State.reset with cfg := P, port := events, draws := draws } : State) = .next t → t.Inv

/-- In a state that meets the invariants of R34 the machine never stops. R195 promises it of every command but GENPRIME; that a pending
GENPRIME answers a next state after a rejected candidate too is the model's choice (log 7), and so is the idle turn with nothing
pending (log 2). -/
def Obligations.StepAlwaysAnswers : Prop := ∀ s : State, s.Inv → ∃ t, step s = .next t

/-! ### The life of a command (44_command_control.md) -/

/-- 20_memory.md R61, 44_command_control.md R192: a step takes the first event of the port. A host access has its effect with the event
taken off. At an engine event with BUSY = 1 and a legal word pending the step is the execution of that command; with BUSY = 0 nothing
changes (60_exceptions.md R270). That the engine's turn comes at once in WAIT and with an empty port, where R195 promises only that it
comes, that WAIT with BUSY = 0 is one read of STATUS, and that an idle turn is a step at all, are the model's choices (log 2). -/
def Obligations.StepRunsPending : Prop :=
  ∀ (s : State) (rest : List Event),
    (∀ i : Instr, s.busy = true → decode s.pend = .ok i →
      (s.port = .engine :: rest → step s = exec i { s with port := rest }) ∧
      (s.port = .wait :: rest → step s = exec i s) ∧
      (s.port = [] → step s = exec i s)) ∧
    (s.busy = false →
      (s.port = .engine :: rest → step s = .next { s with port := rest }) ∧
      (s.port = .wait :: rest → step s = .next { s with port := rest, rdata := s.statusWord }) ∧
      (s.port = [] → step s = .next s)) ∧
    (∀ addr n, s.port = .read addr n :: rest → step s = .next (State.hostRead { s with port := rest } addr n)) ∧
    (∀ addr n v, s.port = .write addr n v :: rest → step s = .next (State.hostWrite { s with port := rest } addr n v))

/-- R190: the issue of a command, judged on the state the write to CMD finds. -/
def Obligations.IssueRule : Prop :=
  ∀ (s : State) (w : Word) (rest : List Event), s.port = .write s.cfg.base 4 w :: rest →
    (s.busy = true ∨ s.err ≠ none → step s = .next { s with port := rest, herr := true }) ∧
    (s.busy = false → s.err = none → ∀ i, decode w = .ok i →
      step s = .next { s with port := rest, pend := w, busy := true }) ∧
    (s.busy = false → s.err = none → ∀ c, decode w = .error c →
      step s = .next { s with port := rest, pend := w, err := some .illegalCommand })

/-- A command line followed by WAIT is the call of R196: the first step issues the command, the second executes it on the operands the host
left, with BUSY and PEND set and nothing else changed. That the second step, at WAIT, is the engine's turn is the model's choice (log 2):
R196 has the host read STATUS until BUSY = 0. -/
def Obligations.CallProtocol : Prop :=
  ∀ (s : State) (i : Instr) (rest : List Event), s.busy = false → s.err = none →
    s.port = scriptCommand s.cfg i ++ scriptWait ++ rest →
    ∃ t, step s = .next t ∧ t = { s with port := .wait :: rest, pend := encode i, busy := true } ∧
      step t = exec i t

/-- R195: every command but GENPRIME completes in the engine's turn, in every state. -/
def Obligations.TurnCompletes : Prop :=
  ∀ (i : Instr) (s : State), (∀ rd rs1, i ≠ .genprime rd rs1) → ∃ t, exec i s = .next t ∧ t.busy = false

/-- R194, R22: what a command with an X destination leaves unchanged: every other register, every buffer byte and length, PEND, HERR and
what lies outside the engine; its destination when it fails. BUSY, ERR and the draws are the only other fields that may change. -/
def Obligations.FrameXDestination : Prop :=
  ∀ (i : Instr) (rd : XReg) (s t : State), destX i = some rd → exec i s = .next t →
    (∀ r, r ≠ rd → t.readX r = s.readX r) ∧
    (∀ a, Memory.read t.mem a = Memory.read s.mem a) ∧ (∀ j, t.readLen j = s.readLen j) ∧
    t.pend = s.pend ∧ t.herr = s.herr ∧ t.cfg = s.cfg ∧ t.port = s.port ∧ t.rdata = s.rdata ∧
    (t.err ≠ s.err → t.readX rd = s.readX rd)

/-- R194, R26: what a command with a B destination leaves unchanged: every register, every byte outside the destination's data array,
every other length, PEND, HERR and what lies outside the engine; its destination when it fails. The premise on the lengths is the
invariant R34. -/
def Obligations.FrameBDestination : Prop :=
  ∀ (i : Instr) (rd : BReg) (s t : State), s.lengthsFit → destB i = some rd → exec i s = .next t →
    (∀ r, t.readX r = s.readX r) ∧
    (∀ a, (a < bufferBase rd ∨ bufferBase rd + s.cfg.bufBytes ≤ a) → Memory.read t.mem a = Memory.read s.mem a) ∧
    (∀ j, j ≠ rd → t.readLen j = s.readLen j) ∧
    t.pend = s.pend ∧ t.herr = s.herr ∧ t.cfg = s.cfg ∧ t.port = s.port ∧ t.rdata = s.rdata ∧
    (t.err ≠ s.err → t.readLen rd = s.readLen rd ∧ ∀ a, Memory.read t.mem a = Memory.read s.mem a)

/-- 60_exceptions.md R256: a failure sets ERR and clears BUSY and does nothing else, whatever the command; in particular it takes no
draw. -/
def Obligations.FailureOnlySetsErr : Prop :=
  ∀ (i : Instr) (s t : State), exec i s = .next t → t.err ≠ s.err →
    ∃ e, t = { s with err := some e, busy := false }

/-- 60_exceptions.md R269: no command raises a failure that the matrix does not list for it. -/
def Obligations.FailuresListed : Prop :=
  ∀ (i : Instr) (s t : State) (e : Failure), exec i s = .next t → t.err = some e → s.err = none →
    e ∈ failureMatrix i

/-! ### The host window (20_memory.md, 10_state.md section 6) -/

/-- R52, R53: the map of the host window, every offset of it; a control register stands at its exact offset only, so the offsets inside
its word are reserved. -/
def Obligations.WindowMap : Prop :=
  regionAt 0x000000 = .cmd ∧ regionAt 0x000004 = .status ∧ regionAt 0x000008 = .ctrl ∧ regionAt 0x00000C = .reserved ∧
  (∀ j : BReg, regionAt (0x000010 + 4 * j.val) = .blen j) ∧
  (∀ off, off < 0x000020 → off % 4 ≠ 0 → regionAt off = .reserved) ∧
  (∀ off, 0x000020 ≤ off → off ≤ 0x00FFFF → regionAt off = .reserved) ∧
  (∀ (i : XReg) (o : Nat), o < 0x10000 → regionAt (0x010000 * (i.val + 1) + o) = .xWindow i o) ∧
  (∀ off, 0x090000 ≤ off → off ≤ 0x0FFFFF → regionAt off = .reserved) ∧
  (∀ (j : BReg) (o : Nat), o < 0x10000 → regionAt (0x100000 + 0x010000 * j.val + o) = .bWindow j o)

/-- 60_exceptions.md R250: the code of each failure in STATUS.ERR. -/
def Obligations.FailureCodes : Prop :=
  errCode none = 0x00 ∧ errCode (some .illegalCommand) = 0x01 ∧ errCode (some .rangeError) = 0x02 ∧
  errCode (some .zeroModulus) = 0x03 ∧ errCode (some .badParameter) = 0x04 ∧ errCode (some .noInverse) = 0x10 ∧
  errCode (some .messageTooLarge) = 0x11 ∧ errCode (some .paddingError) = 0x12 ∧
  ∀ e f, errCode e = errCode f → e = f

/-- R28: the STATUS word bit by bit: BUSY, HERR, the code of R250 in bits 15:8, every other bit 0. -/
def Obligations.StatusBits : Prop :=
  ∀ (s : State) (b : Nat), s.statusWord.getLsbD b =
    if b = 0 then s.busy else if b = 1 then s.herr
    else if 8 ≤ b ∧ b ≤ 15 then (errCode s.err).getLsbD (b - 8) else false

/-- R27 to R30: the reads of the control registers, which have no side effect: CMD gives PEND, STATUS the status word, CTRL 0,
all three at any time; BLEN[j] gives the length while BUSY = 0. -/
def Obligations.ControlReads : Prop :=
  ∀ s : State,
    s.hostRead s.cfg.base 4 = { s with rdata := s.pend } ∧
    s.hostRead (s.cfg.base + 0x000004) 4 = { s with rdata := s.statusWord } ∧
    s.hostRead (s.cfg.base + 0x000008) 4 = { s with rdata := 0 } ∧
    ∀ j : BReg, s.busy = false →
      s.hostRead (s.cfg.base + 0x000010 + 4 * j.val) 4 = { s with rdata := BitVec.ofNat 32 (s.readLen j) }

/-- R29: a read of CTRL returns 0 and has no side effect; a write is accepted at any time, its bit 0 clears ERR, its bit 1 clears
HERR, both may be written at once, and nothing else happens. -/
def Obligations.ControlWrite : Prop :=
  ∀ (s : State) (v : Word),
    s.hostRead (s.cfg.base + 0x000008) 4 = { s with rdata := 0 } ∧
    s.hostWrite (s.cfg.base + 0x000008) 4 v =
      { s with
        err := if v.getLsbD 0 = true then none else s.err
        herr := if v.getLsbD 1 = true then false else s.herr }

/-- R30: a write to BLEN[j] sets that length and nothing else, or is refused. -/
def Obligations.LengthWrite : Prop :=
  ∀ (s : State) (j : BReg) (v : Word),
    (s.busy = false → v.toNat ≤ s.cfg.bufBytes →
      s.hostWrite (s.cfg.base + 0x000010 + 4 * j.val) 4 v = { s with blen := s.blen.set j v.toNat }) ∧
    (s.busy = true ∨ s.cfg.bufBytes < v.toNat →
      s.hostWrite (s.cfg.base + 0x000010 + 4 * j.val) 4 v = { s with herr := true })

/-- R58: the list of refused accesses is complete and exact, and a refused access has no effect but HERR; a refused read returns some
value of its width. (The counter of free values is the model's own.) -/
def Obligations.RefusedAccesses : Prop :=
  ∀ (s : State) (off n : Nat) (v : Word), off < 0x140000 → n = 1 ∨ n = 2 ∨ n = 4 →
    (refusedRead s off n → ∃ r, r < 256 ^ n ∧ s.hostRead (s.cfg.base + off) n =
      { s with herr := true, rdata := BitVec.ofNat 32 r, drawn := s.drawn + 1 }) ∧
    (¬ refusedRead s off n → ∃ r, s.hostRead (s.cfg.base + off) n = { s with rdata := r }) ∧
    (refusedWrite s off n v → s.hostWrite (s.cfg.base + off) n v = { s with herr := true }) ∧
    (¬ refusedWrite s off n v → ∃ t, s.writePort off n v = some t ∧ s.hostWrite (s.cfg.base + off) n v = t)

/-- R59: while BUSY = 1 no host access changes a register, a buffer, a length or the pending word, and none ends the command. -/
def Obligations.BusyLocksOperands : Prop :=
  ∀ (s : State) (addr n : Nat) (v : Word), s.busy = true →
    ((s.hostRead addr n).x = s.x ∧ (s.hostRead addr n).mem = s.mem ∧ (s.hostRead addr n).blen = s.blen ∧
      (s.hostRead addr n).pend = s.pend ∧ (s.hostRead addr n).busy = true) ∧
    ((s.hostWrite addr n v).x = s.x ∧ (s.hostWrite addr n v).mem = s.mem ∧ (s.hostWrite addr n v).blen = s.blen ∧
      (s.hostWrite addr n v).pend = s.pend ∧ (s.hostWrite addr n v).busy = true)

/-- R54: the window of `X[i]` is its XBYTES bytes, most significant first: an admitted read returns the bytes at its place, an admitted
write replaces exactly those bytes of the representation and changes no other register. -/
def Obligations.RegisterWindow : Prop :=
  ∀ (s : State) (i : XReg) (o n : Nat) (v : Word),
    s.busy = false → n = 1 ∨ n = 2 ∨ n = 4 → o % n = 0 → o + n ≤ s.cfg.xBytes →
    s.hostRead (s.cfg.base + 0x10000 * (i.val + 1) + o) n =
      { s with rdata := BitVec.ofNat 32 (os2ip (((i2osp (s.readX i) s.cfg.xBytes).drop o).take n)) } ∧
    (∃ u, s.hostWrite (s.cfg.base + 0x10000 * (i.val + 1) + o) n v = s.writeX i u ∧ u < 2 ^ (8 * s.cfg.xBytes) ∧
      ∀ b < s.cfg.xBytes, (i2osp u s.cfg.xBytes).getD b 0 =
        if o ≤ b ∧ b < o + n then (i2osp v.toNat n).getD (b - o) 0
        else (i2osp (s.readX i) s.cfg.xBytes).getD b 0)

/-- R55: the window of `B[j]` is its data array: an admitted read returns the bytes at its place, the first the most significant; an
admitted write sets exactly those bytes and no length. -/
def Obligations.BufferWindow : Prop :=
  ∀ (s : State) (j : BReg) (o n : Nat) (v : Word),
    s.busy = false → n = 1 ∨ n = 2 ∨ n = 4 → o % n = 0 → o + n ≤ s.cfg.bufBytes →
    s.hostRead (s.cfg.base + bufferBase j + o) n =
      { s with rdata := BitVec.ofNat 32 (os2ip ((List.range n).map (fun b => s.readData j (o + b)))) } ∧
    ∃ m, s.hostWrite (s.cfg.base + bufferBase j + o) n v = { s with mem := m } ∧
      ∀ a, Memory.read m a =
        if bufferBase j + o ≤ a ∧ a < bufferBase j + o + n then (i2osp v.toNat n).getD (a - (bufferBase j + o)) 0
        else Memory.read s.mem a

/-- R57: an admitted multi-byte write to a data window is the same as its single-byte writes in ascending order. -/
def Obligations.MultiByteWrite : Prop :=
  ∀ (s : State) (off n : Nat) (v : Word), s.busy = false → n = 1 ∨ n = 2 ∨ n = 4 → off < 0x140000 →
    (∃ i o, regionAt off = .xWindow i o ∧ ¬ badDataAccess off o n s.cfg.xBytes) ∨
    (∃ j o, regionAt off = .bWindow j o ∧ ¬ badDataAccess off o n s.cfg.bufBytes) →
    s.hostWrite (s.cfg.base + off) n v =
      (List.range n).foldl
        (fun t b => t.hostWrite (s.cfg.base + off + b) 1 (((i2osp v.toNat n).getD b 0).setWidth 32)) s

/-- R51 (the model's reading, log 6): an access outside the window, or of another width, leaves the engine as it is. -/
def Obligations.ForeignAccess : Prop :=
  ∀ (s : State) (addr n : Nat) (v : Word),
    (addr < s.cfg.base ∨ s.cfg.base + 0x140000 ≤ addr ∨ (n ≠ 1 ∧ n ≠ 2 ∧ n ≠ 4)) →
    s.hostWrite addr n v = s ∧ ∃ r, s.hostRead addr n = { s with rdata := r, drawn := s.drawn + 1 }

/-- 30_encoding.md R89: the accesses of `WRX Xi, v` leave `X[i] = v` and change nothing else. -/
def Obligations.ScriptLoadsRegister : Prop :=
  ∀ (s : State) (i : XReg) (v : Nat) (rest : List Event), s.busy = false → v < 2 ^ (8 * s.cfg.xBytes) →
    s.port = scriptWrx s.cfg i v ++ rest →
    core.run (scriptWrx s.cfg i v).length s = .next { s.writeX i v with port := rest }

/-- 30_encoding.md R89: the accesses of `WRB Bj, v` leave `B[j] = v`, change no register, no other buffer, and no status field. -/
def Obligations.ScriptLoadsBuffer : Prop :=
  ∀ (s : State) (j : BReg) (v : List Byte) (rest : List Event), s.busy = false → v.length ≤ s.cfg.bufBytes →
    s.port = scriptWrb s.cfg j v ++ rest →
    ∃ m, core.run (scriptWrb s.cfg j v).length s =
        .next { s with mem := m, blen := s.blen.set j v.length, port := rest } ∧
      (∀ o < v.length, Memory.read m (bufferBase j + o) = v.getD o 0) ∧
      (∀ a, (a < bufferBase j ∨ bufferBase j + v.length ≤ a) → Memory.read m a = Memory.read s.mem a)

/-! ### Math kernel (40_math_kernel.md) -/

/-- R100: GCD completes, for every pair of operands and without a draw, with the largest natural that divides both, 0 exactly for two
zeros. -/
def Obligations.GcdCompletes : Prop :=
  ∀ (rd rs1 rs2 : XReg) (s : State),
    ∃ g, exec (.gcd rd rs1 rs2) s = .next (doneX s rd g 0) ∧ g ∣ s.readX rs1 ∧ g ∣ s.readX rs2 ∧
      (∀ d, d ∣ s.readX rs1 → d ∣ s.readX rs2 → d ∣ g ∧ (g ≠ 0 → d ≤ g)) ∧
      (g = 0 ↔ s.readX rs1 = 0 ∧ s.readX rs2 = 0)

/-- R103: MODINV fails with ZeroModulus for `m = 0`, else with NoInverse when `gcd(a, m)` is not 1, and otherwise completes with the
unique `r` in `[0, m)` for which `a * r` is 1 modulo `m`. -/
def Obligations.ModinvCompletes : Prop :=
  ∀ (rd rs1 rs2 : XReg) (s : State),
    (s.readX rs2 = 0 → exec (.modinv rd rs1 rs2) s = .next (s.raise .zeroModulus)) ∧
    (0 < s.readX rs2 → Nat.gcd (s.readX rs1) (s.readX rs2) ≠ 1 →
      exec (.modinv rd rs1 rs2) s = .next (s.raise .noInverse)) ∧
    (0 < s.readX rs2 → Nat.gcd (s.readX rs1) (s.readX rs2) = 1 →
      ∃ r, exec (.modinv rd rs1 rs2) s = .next (doneX s rd r 0) ∧
        ∀ q, (q < s.readX rs2 ∧ s.readX rs1 * q % s.readX rs2 = 1 % s.readX rs2) ↔ q = r)

/-- R106: MODEXP completes with the remainder of `base^exp` by `mod` for `mod > 0`, and fails with ZeroModulus for `mod = 0`. -/
def Obligations.ModexpCompletes : Prop :=
  ∀ (rd rs1 rs2 rs3 : XReg) (s : State),
    (0 < s.readX rs3 → exec (.modexp rd rs1 rs2 rs3) s =
      .next (doneX s rd (s.readX rs1 ^ s.readX rs2 % s.readX rs3) 0)) ∧
    (s.readX rs3 = 0 → exec (.modexp rd rs1 rs2 rs3) s = .next (s.raise .zeroModulus))

/-- R109: BYTELEN completes, without a draw, with `ceil(bitLength(n)/8)`, the least number of bytes that hold `n`; for a number that a
register holds it is at most XBYTES. -/
def Obligations.BytelenCompletes : Prop :=
  ∀ (rd rs1 : XReg) (s : State),
    ∃ k, exec (.bytelen rd rs1) s = .next (doneX s rd k 0) ∧ k = (bitLength (s.readX rs1) + 7) / 8 ∧
      (∀ j, s.readX rs1 < 256 ^ j ↔ k ≤ j) ∧ (s.readX rs1 < 2 ^ (8 * s.cfg.xBytes) → k ≤ s.cfg.xBytes)

/-! ### Primality (41_primality.md) -/

/-- R120, R121: below 2 the answer is 0, a prime up to 37 is accepted, a number with another prime up to 37 as a factor is
rejected; none of these takes a draw or looks at `rounds`. -/
def Obligations.IsprimeTrialDivision : Prop :=
  ∀ (rd rs1 rs2 : XReg) (s : State),
    (s.readX rs1 < 2 → exec (.isprime rd rs1 rs2) s = .next (doneX s rd 0 0)) ∧
    (smallPrime (s.readX rs1) → exec (.isprime rd rs1 rs2) s = .next (doneX s rd 1 0)) ∧
    (2 ≤ s.readX rs1 → ∀ p, smallPrime p → p ∣ s.readX rs1 → s.readX rs1 ≠ p →
      exec (.isprime rd rs1 rs2) s = .next (doneX s rd 0 0))

/-- R120, R122, R123, R124: a number that survives trial division is accepted exactly when every one of its `rounds` witnesses passes
its round, with `rounds` draws taken, and rejected at the first that fails, with the draws up to it taken. -/
def Obligations.IsprimeRounds : Prop :=
  ∀ (rd rs1 rs2 : XReg) (s : State), 2 ≤ s.readX rs1 → (∀ p, smallPrime p → ¬ p ∣ s.readX rs1) →
    ((∀ j < s.readX rs2, passesRound (s.readX rs1) (witness s (s.readX rs1) j)) →
      exec (.isprime rd rs1 rs2) s = .next (doneX s rd 1 (s.readX rs2))) ∧
    (∀ j < s.readX rs2, (∀ i < j, passesRound (s.readX rs1) (witness s (s.readX rs1) i)) →
      ¬ passesRound (s.readX rs1) (witness s (s.readX rs1) j) →
      exec (.isprime rd rs1 rs2) s = .next (doneX s rd 0 (j + 1)))

/-- R124: a prime is accepted under every draw and every number of rounds. -/
def Obligations.IsprimeAcceptsPrimes : Prop :=
  ∀ (rd rs1 rs2 : XReg) (s : State), (s.readX rs1).Prime →
    ∃ k, k ≤ s.readX rs2 ∧ exec (.isprime rd rs1 rs2) s = .next (doneX s rd 1 k)

/-- R124 to R127: with `16 <= bits <= 8*XBYTES`, GENPRIME completes with its first candidate, after one candidate draw and 40 witness
draws, when the candidate is prime, and also when it has no prime factor up to 37 and passes the round of each of the 40 witnesses. -/
def Obligations.GenprimeCompletes : Prop :=
  ∀ (rd rs1 : XReg) (s : State), 16 ≤ s.readX rs1 → s.readX rs1 ≤ 8 * s.cfg.xBytes →
    ((firstCandidate s (s.readX rs1)).Prime →
      exec (.genprime rd rs1) s = .next (doneX s rd (firstCandidate s (s.readX rs1)) 41)) ∧
    ((∀ p, smallPrime p → ¬ p ∣ firstCandidate s (s.readX rs1)) →
      (∀ j < 40, passesRound (firstCandidate s (s.readX rs1)) (candidateWitness s (s.readX rs1) j)) →
      exec (.genprime rd rs1) s = .next (doneX s rd (firstCandidate s (s.readX rs1)) 41))

/-- R123, R125, R126: a first candidate with a prime factor up to 37 is rejected on its own draw alone; one without, at the first witness
that fails its round, with the draws up to that one taken. The command stays pending with nothing else changed. (That the engine's turn
ends there is the model's form of the retry loop, log 7.) -/
def Obligations.GenprimeRetries : Prop :=
  ∀ (rd rs1 : XReg) (s : State), 16 ≤ s.readX rs1 → s.readX rs1 ≤ 8 * s.cfg.xBytes →
    (∀ p, smallPrime p → p ∣ firstCandidate s (s.readX rs1) → exec (.genprime rd rs1) s = .next (s.takeDraws 1)) ∧
    ((∀ p, smallPrime p → ¬ p ∣ firstCandidate s (s.readX rs1)) → ∀ j < 40,
      (∀ i < j, passesRound (firstCandidate s (s.readX rs1)) (candidateWitness s (s.readX rs1) i)) →
      ¬ passesRound (firstCandidate s (s.readX rs1)) (candidateWitness s (s.readX rs1) j) →
      exec (.genprime rd rs1) s = .next (s.takeDraws (j + 2)))

/-- R125, R127: whatever the draws, a GENPRIME that ends without a failure leaves an odd number of exactly `bits` bits. -/
def Obligations.GenprimeShape : Prop :=
  ∀ (rd rs1 : XReg) (s t : State), s.busy = true → s.err = none → exec (.genprime rd rs1) s = .next t →
    t.busy = false → t.err = none →
    t.readX rd % 2 = 1 ∧ 2 ^ (s.readX rs1 - 1) ≤ t.readX rd ∧ t.readX rd < 2 ^ s.readX rs1

/-- R125, R128: BadParameter below 16 bits, RangeError above 8*XBYTES. -/
def Obligations.GenprimeFails : Prop :=
  ∀ (rd rs1 : XReg) (s : State),
    (s.readX rs1 < 16 → exec (.genprime rd rs1) s = .next (s.raise .badParameter)) ∧
    (8 * s.cfg.xBytes < s.readX rs1 → exec (.genprime rd rs1) s = .next (s.raise .rangeError))

/-! ### Padding (42_padding.md) -/

/-- R140, R141: for `maskLen <= BUFBYTES` the MGF1 command leaves the mask: byte `i` is byte `i mod HLEN` of the hash of the seed and
the 4-byte big-endian counter `i div HLEN`. A longer mask is a RangeError. -/
def Obligations.MaskCompletes : Prop :=
  ∀ (rd rs1 : BReg) (rs2 : XReg) (s : State),
    (s.readX rs2 ≤ s.cfg.bufBytes →
      ∃ m : List Byte, exec (.mgf1 rd rs1 rs2) s = .next (doneB s rd m 0) ∧ m.length = s.readX rs2 ∧
        ∀ i < s.readX rs2, m.getD i 0 =
          (Config.hash s.cfg (s.readB rs1 ++ i2osp (i / s.cfg.hLen) 4)).getD (i % s.cfg.hLen) 0) ∧
    (s.cfg.bufBytes < s.readX rs2 → exec (.mgf1 rd rs1 rs2) s = .next (s.raise .rangeError))

/-- R140: a shorter mask of a seed is the beginning of a longer one. -/
def Obligations.MaskTruncates : Prop :=
  ∀ (P : Config.Params) (seed : List Byte) (a b : Nat), a ≤ b →
    mgf1 (Config.hash P) seed a = (mgf1 (Config.hash P) seed b).take a

/-- R150, R151, R152: for `len(message) + 2*HLEN + 2 <= k <= BUFBYTES` OAEPENC takes one draw, a seed of HLEN bytes, and leaves a block
of exactly `k` bytes: 0x00, the masked seed, the masked DB, with DB = HASH(label), zeros, 0x01, message. -/
def Obligations.OaepencCompletes : Prop :=
  ∀ (rd rs1 rs2 : BReg) (rs3 : XReg) (s : State),
    (s.readB rs1).length + 2 * s.cfg.hLen + 2 ≤ s.readX rs3 → s.readX rs3 ≤ s.cfg.bufBytes →
    ∃ em seed db : List Byte, exec (.oaepenc rd rs1 rs2 rs3) s = .next (doneB s rd em 1) ∧
      em.length = s.readX rs3 ∧ em.head? = some 0 ∧
      seed = randBytes (s.upcoming 0) s.cfg.hLen ∧ seed.length = s.cfg.hLen ∧
      db = Config.hash s.cfg (s.readB rs2) ++ zeros (s.readX rs3 - (s.readB rs1).length - 2 * s.cfg.hLen - 2) ++
        [0x01] ++ s.readB rs1 ∧
      em.drop (1 + s.cfg.hLen) = xorBytes db (mgf1 (Config.hash s.cfg) seed db.length) ∧
      (em.drop 1).take s.cfg.hLen =
        xorBytes seed (mgf1 (Config.hash s.cfg) (em.drop (1 + s.cfg.hLen)) s.cfg.hLen)

/-- R150: RangeError when `k > BUFBYTES`, else MessageTooLarge when the message does not fit. -/
def Obligations.OaepencFails : Prop :=
  ∀ (rd rs1 rs2 : BReg) (rs3 : XReg) (s : State),
    (s.cfg.bufBytes < s.readX rs3 → exec (.oaepenc rd rs1 rs2 rs3) s = .next (s.raise .rangeError)) ∧
    (s.readX rs3 ≤ s.cfg.bufBytes → s.readX rs3 < (s.readB rs1).length + 2 * s.cfg.hLen + 2 →
      exec (.oaepenc rd rs1 rs2 rs3) s = .next (s.raise .messageTooLarge))

/-- R155, R158: OAEPDEC of any block that OAEPENC can make from message `m` under the same label and `k` completes with `m`. -/
def Obligations.OaepdecInverts : Prop :=
  ∀ (rd rs1 rs2 : BReg) (rs3 : XReg) (s : State) (m : List Byte),
    isOaepBlock s.cfg m (s.readB rs2) (s.readX rs3) (s.readB rs1) →
    exec (.oaepdec rd rs1 rs2 rs3) s = .next (doneB s rd m 0)

/-- R155, R156, R157: OAEPDEC of every other string fails, always with the one failure PaddingError, and changes nothing else: the strict
reading rejects every block that OAEPENC could not have made. -/
def Obligations.OaepdecRejects : Prop :=
  ∀ (rd rs1 rs2 : BReg) (rs3 : XReg) (s : State),
    (∀ m, ¬ isOaepBlock s.cfg m (s.readB rs2) (s.readX rs3) (s.readB rs1)) →
    exec (.oaepdec rd rs1 rs2 rs3) s = .next (s.raise .paddingError)

/-- R160, R161, R162: for `HLEN + saltLen + 2 <= ceil(emBits/8) <= BUFBYTES` PSSENC takes one draw, none for an empty salt, and leaves a
PSS encoding of the message with that salt: `ceil(emBits/8)` bytes, the trailer 0xBC last, a value below `2^emBits`. -/
def Obligations.PssencCompletes : Prop :=
  ∀ (rd rs1 : BReg) (rs2 rs3 : XReg) (s : State),
    s.cfg.hLen + s.readX rs3 + 2 ≤ (s.readX rs2 + 7) / 8 → (s.readX rs2 + 7) / 8 ≤ s.cfg.bufBytes →
    ∃ em salt h db : List Byte,
      exec (.pssenc rd rs1 rs2 rs3) s = .next (doneB s rd em (if s.readX rs3 = 0 then 0 else 1)) ∧
      salt = randBytes (s.upcoming 0) (s.readX rs3) ∧ salt.length = s.readX rs3 ∧
      h = Config.hash s.cfg (zeros 8 ++ Config.hash s.cfg (s.readB rs1) ++ salt) ∧
      db = zeros ((s.readX rs2 + 7) / 8 - s.readX rs3 - s.cfg.hLen - 2) ++ [0x01] ++ salt ∧
      em = clearTopBits (8 * ((s.readX rs2 + 7) / 8) - s.readX rs2)
          (xorBytes db (mgf1 (Config.hash s.cfg) h db.length)) ++ h ++ [0xBC] ∧
      em.length = (s.readX rs2 + 7) / 8 ∧ os2ip em < 2 ^ s.readX rs2

/-- R160: RangeError when the block is longer than a buffer, else PaddingError when it is too short for hash and salt. -/
def Obligations.PssencFails : Prop :=
  ∀ (rd rs1 : BReg) (rs2 rs3 : XReg) (s : State),
    (s.cfg.bufBytes < (s.readX rs2 + 7) / 8 → exec (.pssenc rd rs1 rs2 rs3) s = .next (s.raise .rangeError)) ∧
    ((s.readX rs2 + 7) / 8 ≤ s.cfg.bufBytes → (s.readX rs2 + 7) / 8 < s.cfg.hLen + s.readX rs3 + 2 →
      exec (.pssenc rd rs1 rs2 rs3) s = .next (s.raise .paddingError))

/-- R165, R166, R167: PSSVER always completes without a draw, with 1 exactly for the blocks that PSSENC can make from the message with some
salt of the length given, and 0 for every other string. -/
def Obligations.PssverCompletes : Prop :=
  ∀ (rd : XReg) (rs1 rs2 : BReg) (rs3 rs4 : XReg) (s : State),
    (isPssBlock s.cfg (s.readB rs1) (s.readX rs3) (s.readX rs4) (s.readB rs2) →
      exec (.pssver rd rs1 rs2 rs3 rs4) s = .next (doneX s rd 1 0)) ∧
    (¬ isPssBlock s.cfg (s.readB rs1) (s.readX rs3) (s.readX rs4) (s.readB rs2) →
      exec (.pssver rd rs1 rs2 rs3 rs4) s = .next (doneX s rd 0 0))

/-! ### Conversion (43_conversion.md) -/

/-- R180, R181: OS2IP completes with the big-endian value when it is below `2^(8*XBYTES)` and fails with RangeError when it is not;
the test is on the value, not on the length. -/
def Obligations.StringToIntegerCompletes : Prop :=
  ∀ (rd : XReg) (rs1 : BReg) (s : State),
    (os2ip (s.readB rs1) < 2 ^ (8 * s.cfg.xBytes) →
      exec (.os2ip rd rs1) s = .next (doneX s rd (os2ip (s.readB rs1)) 0)) ∧
    (2 ^ (8 * s.cfg.xBytes) ≤ os2ip (s.readB rs1) → exec (.os2ip rd rs1) s = .next (s.raise .rangeError))

/-- R183, R184: for `n <= BUFBYTES` and `v < 256^n` I2OSP completes with the string of `n` bytes whose value is `v`; otherwise it
fails with RangeError. -/
def Obligations.IntegerToStringCompletes : Prop :=
  ∀ (rd : BReg) (rs1 rs2 : XReg) (s : State),
    (s.readX rs2 ≤ s.cfg.bufBytes → s.readX rs1 < 256 ^ s.readX rs2 →
      ∃ t : List Byte, exec (.i2osp rd rs1 rs2) s = .next (doneB s rd t 0) ∧
        t.length = s.readX rs2 ∧ os2ip t = s.readX rs1) ∧
    (s.cfg.bufBytes < s.readX rs2 ∨ 256 ^ s.readX rs2 ≤ s.readX rs1 →
      exec (.i2osp rd rs1 rs2) s = .next (s.raise .rangeError))

/-! ### Host scripts (30_encoding.md) -/

/-- 30_encoding.md R89: what the reading lines give the host: RDX the number in `X[i]`, RDB the string in `B[j]`, ERR? the failure code,
WAIT the status of the idle engine; of the engine itself they change nothing. ACK clears ERR and HERR. (With BUSY = 1, WAIT gives the
status after the engine's turn where that turn ends the command: the turn is the model's, log 2.) -/
def Obligations.ScriptObserves : Prop :=
  ∀ (s : State) (turns : Nat),
    (∀ i, s.busy = false → s.readX i < 2 ^ (8 * s.cfg.xBytes) →
      ∃ r, runLine turns (.rdx i) s = .next ({ s with rdata := r }, .number (s.readX i))) ∧
    (∀ j, s.busy = false → s.readLen j ≤ s.cfg.bufBytes →
      ∃ r, runLine turns (.rdb j) s = .next ({ s with rdata := r }, .string (s.readB j))) ∧
    runLine turns .err s = .next ({ s with rdata := s.statusWord }, .code (errCode s.err)) ∧
    runLine turns .ack s = .next ({ s with err := none, herr := false }, .nothing) ∧
    (s.busy = false → runLine turns .wait s = .next ({ s with rdata := s.statusWord }, .status s.statusWord)) ∧
    (∀ (i : Instr) (u : State), s.busy = true → decode s.pend = .ok i →
      exec i { s with port := .wait :: s.port } = .next u → u.busy = false →
      runLine (turns + 1) .wait s = .next ({ u with port := s.port, rdata := u.statusWord }, .status u.statusWord))

end
end

