-- ==== Sys2Proof/Laws/Bytes.lean ====
section
/-! SUPPORT. The laws of numbers and byte strings (00_scope.md R10 to R12). -/

namespace Sys2Proof.Machine

/-! ### Lengths -/

@[simp] theorem zeros_length (n : Nat) : (zeros n).length = n := List.length_replicate

@[simp] theorem xorBytes_length (s t : List Byte) : (xorBytes s t).length = min s.length t.length :=
  List.length_zipWith

@[simp] theorem i2osp_length (v n : Nat) : (i2osp v n).length = n := by
  induction n generalizing v with
  | zero => rfl
  | succ n ih => simp [i2osp, ih]

@[simp] theorem slice_length (s : List Byte) (i j : Nat) : (slice s i j).length = min (j - i) (s.length - i) := by
  simp [slice]

/-! ### Values -/

@[simp] theorem os2ip_nil : os2ip [] = 0 := rfl

@[simp] theorem os2ip_append_singleton (s : List Byte) (b : Byte) : os2ip (s ++ [b]) = 256 * os2ip s + b.toNat := by
  simp [os2ip]

theorem os2ip_append (s t : List Byte) : os2ip (s ++ t) = os2ip s * 256 ^ t.length + os2ip t := by
  induction t using List.reverseRecOn with
  | nil => simp
  | append_singleton t b ih =>
    rw [← List.append_assoc, os2ip_append_singleton, os2ip_append_singleton, ih, List.length_append,
      List.length_singleton, Nat.pow_succ]
    ring

theorem os2ip_lt (s : List Byte) : os2ip s < 256 ^ s.length := by
  induction s using List.reverseRecOn with
  | nil => simp
  | append_singleton s b ih =>
    have hb := b.isLt
    rw [os2ip_append_singleton, List.length_append, List.length_singleton, Nat.pow_succ]
    omega

/-- `I2OSP` cuts its value to `n` bytes. -/
theorem os2ip_i2osp_mod (v n : Nat) : os2ip (i2osp v n) = v % 256 ^ n := by
  induction n generalizing v with
  | zero => simp [i2osp, Nat.mod_one]
  | succ n ih =>
    have h : v % 256 ^ (n + 1) = v % 256 + 256 * (v / 256 % 256 ^ n) := by
      rw [Nat.pow_succ, Nat.mul_comm, Nat.mod_mul]
    rw [i2osp, os2ip_append_singleton, ih, BitVec.toNat_ofNat, h]
    omega

theorem os2ip_i2osp {v n : Nat} (h : v < 256 ^ n) : os2ip (i2osp v n) = v := by
  rw [os2ip_i2osp_mod, Nat.mod_eq_of_lt h]

@[simp] theorem i2osp_os2ip (s : List Byte) : i2osp (os2ip s) s.length = s := by
  induction s using List.reverseRecOn with
  | nil => rfl
  | append_singleton s b ih =>
    have hb := b.isLt
    have hd : (256 * os2ip s + b.toNat) / 256 = os2ip s := by omega
    rw [List.length_append, List.length_singleton, i2osp, os2ip_append_singleton, hd, ih]
    congr 2
    apply BitVec.eq_of_toNat_eq
    rw [BitVec.toNat_ofNat]
    omega

/-- Two strings of one length with one value are one string. -/
theorem os2ip_inj {s t : List Byte} (hl : s.length = t.length) (hv : os2ip s = os2ip t) : s = t := by
  rw [← i2osp_os2ip s, ← i2osp_os2ip t, hl, hv]

theorem i2osp_mod (v n : Nat) : i2osp (v % 256 ^ n) n = i2osp v n :=
  os2ip_inj (by simp) (by simp [os2ip_i2osp_mod])

/-! ### Lengths of numbers -/

theorem bitLength_le_iff (n L : Nat) : bitLength n ≤ L ↔ n < 2 ^ L := by
  unfold bitLength
  split
  · subst n; simp
  · next h => rw [Nat.succ_le_iff, Nat.log2_lt h]

theorem byteLen_le_iff (n k : Nat) : byteLen n ≤ k ↔ n < 256 ^ k := by
  have h : (256 : Nat) ^ k = 2 ^ (8 * k) := by rw [Nat.pow_mul]
  rw [h, ← bitLength_le_iff]
  unfold byteLen ceilDiv
  omega

/-! ### Masks -/

theorem xorBytes_cancel {s t : List Byte} (h : s.length = t.length) : xorBytes (xorBytes s t) t = s := by
  induction s generalizing t with
  | nil => rfl
  | cons b s ih =>
    cases t with
    | nil => simp at h
    | cons c t =>
      have ih' := ih (t := t) (by simpa using h)
      simp only [xorBytes, List.zipWith_cons_cons] at ih' ⊢
      rw [ih', BitVec.xor_assoc, BitVec.xor_self, BitVec.xor_zero]

end Sys2Proof.Machine
end

