-- ==== Sys2Proof/Laws/State.lean ====
section
/-! SUPPORT. What each named update of the state does to each field, and what the operand reads see of it. -/

namespace Sys2Proof.Machine

/-! ### raise: a failure -/

@[simp] theorem State.raise_cfg (s : State) (e : Failure) : (s.raise e).cfg = s.cfg := rfl
@[simp] theorem State.raise_x (s : State) (e : Failure) : (s.raise e).x = s.x := rfl
@[simp] theorem State.raise_mem (s : State) (e : Failure) : (s.raise e).mem = s.mem := rfl
@[simp] theorem State.raise_blen (s : State) (e : Failure) : (s.raise e).blen = s.blen := rfl
@[simp] theorem State.raise_pend (s : State) (e : Failure) : (s.raise e).pend = s.pend := rfl
@[simp] theorem State.raise_busy (s : State) (e : Failure) : (s.raise e).busy = false := rfl
@[simp] theorem State.raise_herr (s : State) (e : Failure) : (s.raise e).herr = s.herr := rfl
@[simp] theorem State.raise_err (s : State) (e : Failure) : (s.raise e).err = some e := rfl
@[simp] theorem State.raise_port (s : State) (e : Failure) : (s.raise e).port = s.port := rfl
@[simp] theorem State.raise_rdata (s : State) (e : Failure) : (s.raise e).rdata = s.rdata := rfl
@[simp] theorem State.raise_draws (s : State) (e : Failure) : (s.raise e).draws = s.draws := rfl
@[simp] theorem State.raise_drawn (s : State) (e : Failure) : (s.raise e).drawn = s.drawn := rfl

/-! ### finish: the end of a command -/

@[simp] theorem State.finish_cfg (s : State) : s.finish.cfg = s.cfg := rfl
@[simp] theorem State.finish_x (s : State) : s.finish.x = s.x := rfl
@[simp] theorem State.finish_mem (s : State) : s.finish.mem = s.mem := rfl
@[simp] theorem State.finish_blen (s : State) : s.finish.blen = s.blen := rfl
@[simp] theorem State.finish_pend (s : State) : s.finish.pend = s.pend := rfl
@[simp] theorem State.finish_busy (s : State) : s.finish.busy = false := rfl
@[simp] theorem State.finish_herr (s : State) : s.finish.herr = s.herr := rfl
@[simp] theorem State.finish_err (s : State) : s.finish.err = s.err := rfl
@[simp] theorem State.finish_port (s : State) : s.finish.port = s.port := rfl
@[simp] theorem State.finish_rdata (s : State) : s.finish.rdata = s.rdata := rfl
@[simp] theorem State.finish_draws (s : State) : s.finish.draws = s.draws := rfl
@[simp] theorem State.finish_drawn (s : State) : s.finish.drawn = s.drawn := rfl

/-! ### takeDraws: taking draws -/

@[simp] theorem State.takeDraws_cfg (s : State) (k : Nat) : (s.takeDraws k).cfg = s.cfg := rfl
@[simp] theorem State.takeDraws_x (s : State) (k : Nat) : (s.takeDraws k).x = s.x := rfl
@[simp] theorem State.takeDraws_mem (s : State) (k : Nat) : (s.takeDraws k).mem = s.mem := rfl
@[simp] theorem State.takeDraws_blen (s : State) (k : Nat) : (s.takeDraws k).blen = s.blen := rfl
@[simp] theorem State.takeDraws_pend (s : State) (k : Nat) : (s.takeDraws k).pend = s.pend := rfl
@[simp] theorem State.takeDraws_busy (s : State) (k : Nat) : (s.takeDraws k).busy = s.busy := rfl
@[simp] theorem State.takeDraws_herr (s : State) (k : Nat) : (s.takeDraws k).herr = s.herr := rfl
@[simp] theorem State.takeDraws_err (s : State) (k : Nat) : (s.takeDraws k).err = s.err := rfl
@[simp] theorem State.takeDraws_port (s : State) (k : Nat) : (s.takeDraws k).port = s.port := rfl
@[simp] theorem State.takeDraws_rdata (s : State) (k : Nat) : (s.takeDraws k).rdata = s.rdata := rfl
@[simp] theorem State.takeDraws_draws (s : State) (k : Nat) : (s.takeDraws k).draws = s.draws.drop k := rfl
@[simp] theorem State.takeDraws_drawn (s : State) (k : Nat) : (s.takeDraws k).drawn =
    s.drawn + (k - s.draws.length) := rfl

/-! ### writeX: a register write -/

@[simp] theorem State.writeX_cfg (s : State) (i : XReg) (v : Nat) : (s.writeX i v).cfg = s.cfg := rfl
@[simp] theorem State.writeX_x (s : State) (i : XReg) (v : Nat) : (s.writeX i v).x = s.x.set i v := rfl
@[simp] theorem State.writeX_mem (s : State) (i : XReg) (v : Nat) : (s.writeX i v).mem = s.mem := rfl
@[simp] theorem State.writeX_blen (s : State) (i : XReg) (v : Nat) : (s.writeX i v).blen = s.blen := rfl
@[simp] theorem State.writeX_pend (s : State) (i : XReg) (v : Nat) : (s.writeX i v).pend = s.pend := rfl
@[simp] theorem State.writeX_busy (s : State) (i : XReg) (v : Nat) : (s.writeX i v).busy = s.busy := rfl
@[simp] theorem State.writeX_herr (s : State) (i : XReg) (v : Nat) : (s.writeX i v).herr = s.herr := rfl
@[simp] theorem State.writeX_err (s : State) (i : XReg) (v : Nat) : (s.writeX i v).err = s.err := rfl
@[simp] theorem State.writeX_port (s : State) (i : XReg) (v : Nat) : (s.writeX i v).port = s.port := rfl
@[simp] theorem State.writeX_rdata (s : State) (i : XReg) (v : Nat) : (s.writeX i v).rdata = s.rdata := rfl
@[simp] theorem State.writeX_draws (s : State) (i : XReg) (v : Nat) : (s.writeX i v).draws = s.draws := rfl
@[simp] theorem State.writeX_drawn (s : State) (i : XReg) (v : Nat) : (s.writeX i v).drawn = s.drawn := rfl

/-! ### writeLen: a length write -/

@[simp] theorem State.writeLen_cfg (s : State) (j : BReg) (n : Nat) : (s.writeLen j n).cfg = s.cfg := rfl
@[simp] theorem State.writeLen_x (s : State) (j : BReg) (n : Nat) : (s.writeLen j n).x = s.x := rfl
@[simp] theorem State.writeLen_mem (s : State) (j : BReg) (n : Nat) : (s.writeLen j n).mem = s.mem := rfl
@[simp] theorem State.writeLen_blen (s : State) (j : BReg) (n : Nat) : (s.writeLen j n).blen = s.blen.set j n := rfl
@[simp] theorem State.writeLen_pend (s : State) (j : BReg) (n : Nat) : (s.writeLen j n).pend = s.pend := rfl
@[simp] theorem State.writeLen_busy (s : State) (j : BReg) (n : Nat) : (s.writeLen j n).busy = s.busy := rfl
@[simp] theorem State.writeLen_herr (s : State) (j : BReg) (n : Nat) : (s.writeLen j n).herr = s.herr := rfl
@[simp] theorem State.writeLen_err (s : State) (j : BReg) (n : Nat) : (s.writeLen j n).err = s.err := rfl
@[simp] theorem State.writeLen_port (s : State) (j : BReg) (n : Nat) : (s.writeLen j n).port = s.port := rfl
@[simp] theorem State.writeLen_rdata (s : State) (j : BReg) (n : Nat) : (s.writeLen j n).rdata = s.rdata := rfl
@[simp] theorem State.writeLen_draws (s : State) (j : BReg) (n : Nat) : (s.writeLen j n).draws = s.draws := rfl
@[simp] theorem State.writeLen_drawn (s : State) (j : BReg) (n : Nat) : (s.writeLen j n).drawn = s.drawn := rfl

/-! ### writeB: a buffer write -/

@[simp] theorem State.writeB_cfg (s : State) (j : BReg) (v : List Byte) : (s.writeB j v).cfg = s.cfg := rfl
@[simp] theorem State.writeB_x (s : State) (j : BReg) (v : List Byte) : (s.writeB j v).x = s.x := rfl
@[simp] theorem State.writeB_mem (s : State) (j : BReg) (v : List Byte) : (s.writeB j v).mem =
    Memory.writeBytes (Memory.clear s.mem (bufferBase j) s.cfg.bufBytes) (bufferBase j) v := rfl
@[simp] theorem State.writeB_blen (s : State) (j : BReg) (v : List Byte) : (s.writeB j v).blen =
    s.blen.set j v.length := rfl
@[simp] theorem State.writeB_pend (s : State) (j : BReg) (v : List Byte) : (s.writeB j v).pend = s.pend := rfl
@[simp] theorem State.writeB_busy (s : State) (j : BReg) (v : List Byte) : (s.writeB j v).busy = s.busy := rfl
@[simp] theorem State.writeB_herr (s : State) (j : BReg) (v : List Byte) : (s.writeB j v).herr = s.herr := rfl
@[simp] theorem State.writeB_err (s : State) (j : BReg) (v : List Byte) : (s.writeB j v).err = s.err := rfl
@[simp] theorem State.writeB_port (s : State) (j : BReg) (v : List Byte) : (s.writeB j v).port = s.port := rfl
@[simp] theorem State.writeB_rdata (s : State) (j : BReg) (v : List Byte) : (s.writeB j v).rdata = s.rdata := rfl
@[simp] theorem State.writeB_draws (s : State) (j : BReg) (v : List Byte) : (s.writeB j v).draws = s.draws := rfl
@[simp] theorem State.writeB_drawn (s : State) (j : BReg) (v : List Byte) : (s.writeB j v).drawn = s.drawn := rfl

/-! ### acknowledge: a write to CTRL -/

@[simp] theorem State.acknowledge_cfg (s : State) (v : Word) : (s.acknowledge v).cfg = s.cfg := rfl
@[simp] theorem State.acknowledge_x (s : State) (v : Word) : (s.acknowledge v).x = s.x := rfl
@[simp] theorem State.acknowledge_mem (s : State) (v : Word) : (s.acknowledge v).mem = s.mem := rfl
@[simp] theorem State.acknowledge_blen (s : State) (v : Word) : (s.acknowledge v).blen = s.blen := rfl
@[simp] theorem State.acknowledge_pend (s : State) (v : Word) : (s.acknowledge v).pend = s.pend := rfl
@[simp] theorem State.acknowledge_busy (s : State) (v : Word) : (s.acknowledge v).busy = s.busy := rfl
@[simp] theorem State.acknowledge_herr (s : State) (v : Word) : (s.acknowledge v).herr =
    if v.getLsbD 1 then false else s.herr := rfl
@[simp] theorem State.acknowledge_err (s : State) (v : Word) : (s.acknowledge v).err =
    if v.getLsbD 0 then none else s.err := rfl
@[simp] theorem State.acknowledge_port (s : State) (v : Word) : (s.acknowledge v).port = s.port := rfl
@[simp] theorem State.acknowledge_rdata (s : State) (v : Word) : (s.acknowledge v).rdata = s.rdata := rfl
@[simp] theorem State.acknowledge_draws (s : State) (v : Word) : (s.acknowledge v).draws = s.draws := rfl
@[simp] theorem State.acknowledge_drawn (s : State) (v : Word) : (s.acknowledge v).drawn = s.drawn := rfl

/-! ### resetEvent: the reset event -/

@[simp] theorem State.resetEvent_cfg (s : State) : s.resetEvent.cfg = s.cfg := rfl
@[simp] theorem State.resetEvent_x (s : State) : s.resetEvent.x = Vector.replicate 8 0 := rfl
@[simp] theorem State.resetEvent_mem (s : State) : s.resetEvent.mem = [] := rfl
@[simp] theorem State.resetEvent_blen (s : State) : s.resetEvent.blen = Vector.replicate 4 0 := rfl
@[simp] theorem State.resetEvent_pend (s : State) : s.resetEvent.pend = 0 := rfl
@[simp] theorem State.resetEvent_busy (s : State) : s.resetEvent.busy = false := rfl
@[simp] theorem State.resetEvent_herr (s : State) : s.resetEvent.herr = false := rfl
@[simp] theorem State.resetEvent_err (s : State) : s.resetEvent.err = none := rfl
@[simp] theorem State.resetEvent_port (s : State) : s.resetEvent.port = s.port := rfl
@[simp] theorem State.resetEvent_rdata (s : State) : s.resetEvent.rdata = s.rdata := rfl
@[simp] theorem State.resetEvent_draws (s : State) : s.resetEvent.draws = s.draws := rfl
@[simp] theorem State.resetEvent_drawn (s : State) : s.resetEvent.drawn = s.drawn := rfl

/-! ### What the operand reads see -/

theorem State.readX_congr {s t : State} (h : t.x = s.x) (i : XReg) : t.readX i = s.readX i := by
  simp only [State.readX, h]

theorem State.readLen_congr {s t : State} (h : t.blen = s.blen) (j : BReg) : t.readLen j = s.readLen j := by
  simp only [State.readLen, h]

@[simp] theorem State.readX_raise (s : State) (e : Failure) (i : XReg) : (s.raise e).readX i = s.readX i := rfl
@[simp] theorem State.readX_finish (s : State) (i : XReg) : s.finish.readX i = s.readX i := rfl
@[simp] theorem State.readX_takeDraws (s : State) (k : Nat) (i : XReg) : (s.takeDraws k).readX i = s.readX i := rfl
@[simp] theorem State.readX_writeLen (s : State) (j : BReg) (n : Nat) (i : XReg) :
    (s.writeLen j n).readX i = s.readX i := rfl
@[simp] theorem State.readX_writeB (s : State) (j : BReg) (v : List Byte) (i : XReg) :
    (s.writeB j v).readX i = s.readX i := rfl
@[simp] theorem State.readX_acknowledge (s : State) (v : Word) (i : XReg) : (s.acknowledge v).readX i = s.readX i := rfl

@[simp] theorem State.readLen_raise (s : State) (e : Failure) (j : BReg) : (s.raise e).readLen j = s.readLen j := rfl
@[simp] theorem State.readLen_finish (s : State) (j : BReg) : s.finish.readLen j = s.readLen j := rfl
@[simp] theorem State.readLen_takeDraws (s : State) (k : Nat) (j : BReg) : (s.takeDraws k).readLen j = s.readLen j := rfl
@[simp] theorem State.readLen_writeX (s : State) (i : XReg) (v : Nat) (j : BReg) :
    (s.writeX i v).readLen j = s.readLen j := rfl
@[simp] theorem State.readLen_acknowledge (s : State) (v : Word) (j : BReg) :
    (s.acknowledge v).readLen j = s.readLen j := rfl

@[simp] theorem State.readB_raise (s : State) (e : Failure) (j : BReg) : (s.raise e).readB j = s.readB j := rfl
@[simp] theorem State.readB_finish (s : State) (j : BReg) : s.finish.readB j = s.readB j := rfl
@[simp] theorem State.readB_takeDraws (s : State) (k : Nat) (j : BReg) : (s.takeDraws k).readB j = s.readB j := rfl
@[simp] theorem State.readB_writeX (s : State) (i : XReg) (v : Nat) (j : BReg) : (s.writeX i v).readB j = s.readB j := rfl

/-- Taking no draw changes nothing. -/
@[simp] theorem State.takeDraws_zero (s : State) : s.takeDraws 0 = s := by
  simp [State.takeDraws]

/-- The draws still to come after `k` have been taken. -/
theorem State.upcoming_takeDraws (s : State) (k j : Nat) : (s.takeDraws k).upcoming j = s.upcoming (k + j) := by
  simp only [State.upcoming, State.takeDraws, List.length_drop, List.getD_eq_getElem?_getD, List.getElem?_drop]
  split <;> split <;> first | rfl | omega | (congr 1; omega)

end Sys2Proof.Machine
end

