-- ==== Sys2Proof/Laws/Memory.lean ====
section
/-! SUPPORT. The laws of memory: what a byte reads after each memory operation, that each keeps the canonical form, and where its cells
lie. -/

namespace Sys2Proof.Machine

/-! ### The canonical form, as a proposition -/

theorem Memory.wf_cons {c : Host.Cell} {m : Memory} :
    Memory.wf (c :: m) = true ↔ c.2 ≠ 0 ∧ (∀ d ∈ m, c.1 < d.1) ∧ Memory.wf m = true := by
  simp [Memory.wf, and_assoc]

/-- An address that no cell has reads 0. -/
theorem Memory.read_eq_zero {m : Memory} {a : Nat} (h : ∀ d ∈ m, d.1 ≠ a) : Memory.read m a = 0 := by
  induction m with
  | nil => rfl
  | cons c m ih =>
    rw [Memory.read, if_neg (h c (by simp))]
    exact ih fun d hd => h d (by simp [hd])

/-! ### Taking cells out -/

theorem Memory.wf_filter {m : Memory} (hm : Memory.wf m = true) (p : Host.Cell → Bool) :
    Memory.wf (m.filter p) = true := by
  induction m with
  | nil => rfl
  | cons c m ih =>
    obtain ⟨hc, hlt, hw⟩ := Memory.wf_cons.1 hm
    rw [List.filter_cons]
    split
    · exact Memory.wf_cons.2 ⟨hc, fun d hd => hlt d (List.mem_of_mem_filter hd), ih hw⟩
    · exact ih hw

/-- Taking out the cells of a set of addresses: those read 0, the others as before. -/
theorem Memory.read_filter (m : Memory) (p : Nat → Bool) (b : Nat) :
    Memory.read (m.filter (fun c => p c.1)) b = if p b then Memory.read m b else 0 := by
  induction m with
  | nil => simp [Memory.read]
  | cons c m ih =>
    rw [List.filter_cons, Memory.read]
    by_cases hb : c.1 = b
    · subst hb
      cases hp : p c.1
      · simp [ih, hp]
      · simp [Memory.read]
    · rw [if_neg hb]
      split
      · rw [Memory.read, if_neg hb, ih]
      · exact ih

/-! ### Writing one byte -/

theorem Memory.mem_insert {m : Memory} {c d : Host.Cell} (h : d ∈ Memory.insert m c) : d ∈ m ∨ d = c := by
  induction m with
  | nil => right; simpa [Memory.insert] using h
  | cons e m ih =>
    rw [Memory.insert] at h
    split at h
    · rcases List.mem_cons.1 h with h | h
      · exact .inr h
      · exact .inl h
    · rcases List.mem_cons.1 h with h | h
      · exact .inl (by simp [h])
      · exact (ih h).imp (fun h => by simp [h]) id

theorem Memory.wf_insert {m : Memory} (hm : Memory.wf m = true) {c : Host.Cell} (hc : c.2 ≠ 0)
    (hne : ∀ d ∈ m, d.1 ≠ c.1) : Memory.wf (Memory.insert m c) = true := by
  induction m with
  | nil => simpa [Memory.insert, Memory.wf] using hc
  | cons e m ih =>
    obtain ⟨he, hlt, hw⟩ := Memory.wf_cons.1 hm
    rw [Memory.insert]
    split
    · next h =>
      refine Memory.wf_cons.2 ⟨hc, fun d hd => ?_, hm⟩
      rcases List.mem_cons.1 hd with rfl | hd
      · exact h
      · exact Nat.lt_trans h (hlt d hd)
    · next h =>
      refine Memory.wf_cons.2 ⟨he, fun d hd => ?_, ih hw fun d hd => hne d (by simp [hd])⟩
      rcases Memory.mem_insert hd with hd | rfl
      · exact hlt d hd
      · exact Nat.lt_of_le_of_ne (Nat.le_of_not_lt h) (hne e (by simp))

theorem Memory.read_insert {m : Memory} {c : Host.Cell} (hne : ∀ d ∈ m, d.1 ≠ c.1) (b : Nat) :
    Memory.read (Memory.insert m c) b = if b = c.1 then c.2 else Memory.read m b := by
  induction m with
  | nil => simp only [Memory.insert, Memory.read, eq_comm]
  | cons e m ih =>
    rw [Memory.insert]
    split
    · rw [Memory.read]; simp only [eq_comm]
    · rw [Memory.read, Memory.read, ih fun d hd => hne d (by simp [hd])]
      have := hne e (by simp)
      split <;> split <;> first | rfl | omega

/-- The cells of a memory after a write: old cells elsewhere, and a new one. -/
theorem Memory.mem_write {m : Memory} {a : Nat} {v : Byte} {d : Host.Cell} (h : d ∈ Memory.write m a v) :
    d ∈ m ∨ d = (a, v) := by
  rw [Memory.write] at h
  split at h
  · exact .inl (List.mem_of_mem_filter h)
  · exact (Memory.mem_insert h).imp List.mem_of_mem_filter id

/-- A byte write keeps the canonical form. -/
theorem Memory.wf_write {m : Memory} (hm : Memory.wf m = true) (a : Nat) (v : Byte) :
    Memory.wf (Memory.write m a v) = true := by
  rw [Memory.write]
  split
  · exact Memory.wf_filter hm _
  · next hv => exact Memory.wf_insert (Memory.wf_filter hm _) hv fun d hd => by simpa using (List.mem_filter.1 hd).2

/-- A read after a byte write. -/
theorem Memory.read_write (m : Memory) (a b : Nat) (v : Byte) :
    Memory.read (Memory.write m a v) b = if b = a then v else Memory.read m b := by
  have hf := Memory.read_filter m (fun k => k != a) b
  rw [Memory.write]
  split
  · next hv => rw [hf]; by_cases h : b = a <;> simp [h, hv]
  · rw [Memory.read_insert (fun d hd => by simpa using (List.mem_filter.1 hd).2), hf]
    by_cases h : b = a <;> simp [h]

/-! ### Writing a string -/

theorem Memory.wf_writeBytes {m : Memory} (hm : Memory.wf m = true) (a : Nat) (v : List Byte) :
    Memory.wf (Memory.writeBytes m a v) = true := by
  induction v generalizing m a with
  | nil => exact hm
  | cons b v ih => exact ih (Memory.wf_write hm a b) (a + 1)

theorem Memory.mem_writeBytes {m : Memory} {a : Nat} {v : List Byte} {d : Host.Cell}
    (h : d ∈ Memory.writeBytes m a v) : d ∈ m ∨ (a ≤ d.1 ∧ d.1 < a + v.length) := by
  induction v generalizing m a with
  | nil => exact .inl h
  | cons b v ih =>
    rcases ih h with h | h
    · rcases Memory.mem_write h with h | rfl
      · exact .inl h
      · right; simp
    · right; simp only [List.length_cons]; omega

theorem Memory.read_writeBytes (m : Memory) (a b : Nat) (v : List Byte) :
    Memory.read (Memory.writeBytes m a v) b =
      if a ≤ b ∧ b < a + v.length then v.getD (b - a) 0 else Memory.read m b := by
  induction v generalizing m a with
  | nil => rw [Memory.writeBytes, if_neg]; simp
  | cons c v ih =>
    rw [Memory.writeBytes, ih, Memory.read_write]
    simp only [List.length_cons]
    by_cases h1 : b = a
    · subst h1; simp
    · by_cases h2 : a ≤ b ∧ b < a + (v.length + 1)
      · have h3 : b - a = (b - (a + 1)) + 1 := by omega
        rw [if_pos (by omega), if_pos h2, h3, List.getD_cons_succ]
      · rw [if_neg (by omega), if_neg h2, if_neg h1]

/-! ### Clearing -/

theorem Memory.mem_clear {m : Memory} {a n : Nat} {d : Host.Cell} (h : d ∈ Memory.clear m a n) : d ∈ m :=
  List.mem_of_mem_filter h

theorem Memory.wf_clear {m : Memory} (hm : Memory.wf m = true) (a n : Nat) : Memory.wf (Memory.clear m a n) = true :=
  Memory.wf_filter hm _

theorem Memory.read_clear (m : Memory) (a n b : Nat) :
    Memory.read (Memory.clear m a n) b = if a ≤ b ∧ b < a + n then 0 else Memory.read m b := by
  rw [Memory.clear, Memory.read_filter m (fun k => !(a ≤ k && k < a + n))]
  by_cases h : a ≤ b ∧ b < a + n <;> simp [h]

/-! ### Reading a string -/

@[simp] theorem Memory.readBytes_length (m : Memory) (a n : Nat) : (Memory.readBytes m a n).length = n := by
  simp [Memory.readBytes]

theorem Memory.getD_readBytes (m : Memory) (a n o : Nat) (h : o < n) :
    (Memory.readBytes m a n).getD o 0 = Memory.read m (a + o) := by
  simp [Memory.readBytes, List.getD_eq_getElem?_getD, h]

/-- Two memories that agree on `n` bytes give one string. -/
theorem Memory.readBytes_congr {m m' : Memory} {a n : Nat} (h : ∀ o < n, Memory.read m (a + o) = Memory.read m' (a + o)) :
    Memory.readBytes m a n = Memory.readBytes m' a n := by
  simp only [Memory.readBytes]
  exact List.map_congr_left fun o ho => h o (List.mem_range.1 ho)

/-- A written string reads back. -/
theorem Memory.readBytes_writeBytes (m : Memory) (a : Nat) (v : List Byte) :
    Memory.readBytes (Memory.writeBytes m a v) a v.length = v := by
  apply List.ext_getElem?
  intro o
  by_cases h : o < v.length
  · simp [Memory.readBytes, h, Memory.read_writeBytes]
  · simp [Memory.readBytes, h]

/-! ### Buffers -/

@[simp] theorem State.readB_length (s : State) (j : BReg) : (s.readB j).length = s.readLen j := by
  simp [State.readB]

/-- Every byte after a buffer write: the string, zeros to the end of the array, the old byte elsewhere (R26). -/
theorem State.read_writeB (s : State) (j : BReg) (v : List Byte) (a : Nat) :
    Memory.read (s.writeB j v).mem a =
      if bufferBase j ≤ a ∧ a < bufferBase j + v.length then v.getD (a - bufferBase j) 0
      else if bufferBase j ≤ a ∧ a < bufferBase j + s.cfg.bufBytes then 0
      else Memory.read s.mem a := by
  rw [State.writeB_mem, Memory.read_writeBytes, Memory.read_clear]

/-- A written buffer reads back. -/
@[simp] theorem State.readB_writeB (s : State) (j : BReg) (v : List Byte) : (s.writeB j v).readB j = v := by
  have h : (s.writeB j v).readLen j = v.length := by simp [State.readLen]
  rw [State.readB, h, State.writeB_mem, Memory.readBytes_writeBytes]

end Sys2Proof.Machine
end

