-- ==== Sys2Proof/Laws/Bounds.lean ====
section
/-! SUPPORT. The sizes of what the commands compute (10_state.md R22, R26): why no result exceeds its register or its buffer. -/

namespace Sys2Proof.Machine

/-! ### Math kernel -/

theorem gcdLoop_le (fuel a b : Nat) : gcdLoop fuel a b ≤ max a b := by
  induction fuel generalizing a b with
  | zero => exact Nat.le_max_left a b
  | succ fuel ih =>
    rw [gcdLoop]
    split
    · next hb =>
      have h1 := ih b (a % b)
      have h2 := Nat.mod_lt a (Nat.pos_of_ne_zero hb)
      omega
    · exact Nat.le_max_left a b

theorem euclid_le (a b : Nat) : euclid a b ≤ max a b := gcdLoop_le _ _ _

theorem powerLoop_lt {m r : Nat} (hr : r < m) (fuel b e : Nat) : powerLoop fuel r b e m < m := by
  induction fuel generalizing r b e with
  | zero => exact hr
  | succ fuel ih =>
    rw [powerLoop]
    split
    · refine ih ?_ _ _
      split
      · exact Nat.mod_lt _ (by omega)
      · exact hr
    · exact hr

theorem modPower_lt {m : Nat} (hm : 0 < m) (b e : Nat) : modPower b e m < m :=
  powerLoop_lt (Nat.mod_lt _ hm) _ _ _

/-- What MODINV answers: one of its two failures, or a number below the modulus. -/
theorem modInverse_cases (a m : Nat) :
    modInverse a m = .error .zeroModulus ∨ modInverse a m = .error .noInverse ∨ ∃ r < m, modInverse a m = .ok r := by
  rw [modInverse]
  split
  · exact .inl rfl
  · next hm =>
    right
    dsimp only
    split
    · exact .inl rfl
    · refine .inr ⟨_, ?_, rfl⟩
      have h1 := Int.emod_nonneg (inverseLoop (m + 1) m (a % m) 0 1).2 (Int.natCast_ne_zero.2 hm)
      have h2 := Int.emod_lt_of_pos (inverseLoop (m + 1) m (a % m) 0 1).2 (Int.natCast_pos.2 (Nat.pos_of_ne_zero hm))
      omega

theorem byteLen_le_of_lt {n k : Nat} (h : n < 2 ^ (8 * k)) : byteLen n ≤ k := by
  rw [byteLen_le_iff, show (256 : Nat) = 2 ^ 8 from rfl, ← Nat.pow_mul]
  exact h

/-! ### Primality -/

theorem randRange_mem {r lo hi : Nat} (h : lo ≤ hi) : lo ≤ randRange r lo hi ∧ randRange r lo hi ≤ hi := by
  rw [randRange]
  split
  · assumption
  · exact ⟨Nat.le_refl lo, h⟩

theorem candidate_lt {bits c : Nat} (hb : 0 < bits) (hc : c < 2 ^ bits) : candidate bits c < 2 ^ bits := by
  refine Nat.or_lt_two_pow (Nat.or_lt_two_pow hc ?_) (Nat.one_lt_two_pow (by omega))
  exact Nat.pow_lt_pow_right (by omega) (by omega)

/-! ### Padding -/

@[simp] theorem hash_length (P : Config.Params) (s : List Byte) : (Config.hash P s).length = P.hLen :=
  Vector.length_toList

@[simp] theorem randBytes_length (r n : Nat) : (randBytes r n).length = n := i2osp_length _ _

/-- Every string of `n` bytes is the answer to some raw draw. -/
theorem randBytes_surjective (t : List Byte) : randBytes (os2ip t) t.length = t := by
  rw [randBytes, i2osp_mod, i2osp_os2ip]

/-- Every value of a range is the answer to some raw draw. -/
theorem randRange_surjective {lo hi v : Nat} (h : lo ≤ v ∧ v ≤ hi) : randRange v lo hi = v := if_pos h

/-- The mask loop ends with at least `maskLen` bytes when every hash block has a byte and the fuel is enough. -/
theorem maskLoop_length {hash : List Byte → List Byte} (hh : ∀ s, 0 < (hash s).length) (seed : List Byte) (maskLen fuel : Nat)
    (t : List Byte) (c : Nat) (hf : maskLen ≤ t.length + fuel) :
    maskLen ≤ (maskLoop hash seed maskLen fuel t c).length := by
  induction fuel generalizing t c with
  | zero => exact hf
  | succ fuel ih =>
    rw [maskLoop]
    split
    · refine ih _ _ ?_
      have := hh (seed ++ i2osp c 4)
      rw [List.length_append]
      omega
    · omega

theorem hash_pos (P : Config.Params) (s : List Byte) : 0 < (Config.hash P s).length := by
  rw [hash_length]; exact P.valid.2.2.1.1

@[simp] theorem mgf1_length (P : Config.Params) (seed : List Byte) (n : Nat) :
    (mgf1 (Config.hash P) seed n).length = n := by
  have h := maskLoop_length (hash_pos P) seed n n [] 0 (by simp)
  rw [mgf1, List.length_take]
  omega

theorem oaepBlock_length {P : Config.Params} {m l : List Byte} {k : Nat} {seed : List Byte}
    (hs : seed.length = P.hLen) (hk : m.length + 2 * P.hLen + 2 ≤ k) :
    (oaepBlock (Config.hash P) P.hLen m l k seed).length = k := by
  simp only [oaepBlock, List.length_append, List.length_singleton, xorBytes_length, mgf1_length, hash_length,
    zeros_length, hs]
  omega

theorem messageAfterSeparator_length {rest m : List Byte} (h : messageAfterSeparator rest = some m) :
    m.length < rest.length := by
  rw [messageAfterSeparator] at h
  have hl := List.length_dropWhile_le (· == (0x00 : Byte)) rest
  split at h
  · simp at h
  · next b t hr =>
    rw [hr, List.length_cons] at hl
    split at h
    · simp only [Option.some.injEq] at h
      subst h; omega
    · simp at h

/-- A recovered message is shorter than the block it comes from. -/
theorem oaepMessage_length {hash : List Byte → List Byte} {hLen : Nat} {em l m : List Byte} {k : Nat}
    (h : oaepMessage hash hLen em l k = some m) : m.length ≤ em.length := by
  rw [oaepMessage] at h
  split at h
  · simp at h
  · split at h
    · simp at h
    · dsimp only at h
      split at h
      · simp at h
      · have h1 := messageAfterSeparator_length h
        simp only [List.length_drop, xorBytes_length, slice_length] at h1
        omega

@[simp] theorem clearTopBits_length (z : Nat) (s : List Byte) : (clearTopBits z s).length = s.length := by
  cases s <;> rfl

theorem pssBlock_length {P : Config.Params} {m : List Byte} {emBits : Nat} {salt : List Byte}
    (hk : P.hLen + salt.length + 2 ≤ pssLength emBits) :
    (pssBlock (Config.hash P) P.hLen m emBits salt).length = pssLength emBits := by
  simp only [pssBlock, List.length_append, List.length_singleton, clearTopBits_length, xorBytes_length, mgf1_length,
    zeros_length, pssHash, hash_length]
  omega

end Sys2Proof.Machine
end

