-- ==== Sys2Proof/Laws/Encoding.lean ====
section
/-! SUPPORT. The fields of an assembled word (30_encoding.md R80, R85): each field reads back what the formula put there. -/

namespace Sys2Proof

theorem assemble_toNat {op a b c d e : Nat} (hop : op < 256) (ha : a < 16) (hb : b < 16) (hc : c < 16) (hd : d < 16)
    (he : e < 16) :
    (assemble op a b c d e).toNat = op + 2 ^ 8 * a + 2 ^ 12 * b + 2 ^ 16 * c + 2 ^ 20 * d + 2 ^ 24 * e := by
  rw [assemble, BitVec.toNat_ofNat]
  omega

/-- The fields of an assembled word. -/
theorem ofWord_assemble {op a b c d e : Nat} (hop : op < 256) (ha : a < 16) (hb : b < 16) (hc : c < 16) (hd : d < 16)
    (he : e < 16) :
    FormatC.ofWord (assemble op a b c d e) =
      { opcode := BitVec.ofNat 8 op, rd := BitVec.ofNat 4 a, rs1 := BitVec.ofNat 4 b, rs2 := BitVec.ofNat 4 c,
        rs3 := BitVec.ofNat 4 d, rs4 := BitVec.ofNat 4 e, zero := 0#4 } := by
  have h := assemble_toNat hop ha hb hc hd he
  simp only [FormatC.ofWord, FormatC.mk.injEq]
  refine ⟨?_, ?_, ?_, ?_, ?_, ?_, ?_⟩ <;> apply BitVec.eq_of_toNat_eq <;>
    simp only [BitVec.extractLsb'_toNat, BitVec.toNat_ofNat, Nat.shiftRight_eq_div_pow, h] <;> omega

/-- The register field at bit 8, 12, 16, 20 or 24 of an assembled word. -/
theorem field_assemble {op a b c d e : Nat} (hop : op < 256) (ha : a < 16) (hb : b < 16) (hc : c < 16) (hd : d < 16)
    (he : e < 16) :
    field (assemble op a b c d e) 8 = a ∧ field (assemble op a b c d e) 12 = b ∧
      field (assemble op a b c d e) 16 = c ∧ field (assemble op a b c d e) 20 = d ∧
      field (assemble op a b c d e) 24 = e := by
  have h := assemble_toNat hop ha hb hc hd he
  simp only [field, h]
  refine ⟨?_, ?_, ?_, ?_, ?_⟩ <;> omega

end Sys2Proof
end

