-- ==== Sys2Proof/Laws/Exec.lean ====
section
/-! SUPPORT. What the execution of a command can answer, said once for all commands (44_command_control.md R192, R194). -/

namespace Sys2Proof.Machine

/-- A completion with an X destination: the value written, or the failure raised. -/
theorem completeX_ok (rd : XReg) (v k : Nat) (s : State) :
    completeX rd (.ok v) k s = .next ((s.takeDraws k).writeX rd v).finish := rfl

theorem completeX_error (rd : XReg) (e : Failure) (k : Nat) (s : State) :
    completeX rd (.error e) k s = .next (s.raise e) := rfl

theorem completeB_ok (rd : BReg) (v : List Byte) (k : Nat) (s : State) :
    completeB rd (.ok v) k s = .next ((s.takeDraws k).writeB rd v).finish := rfl

theorem completeB_error (rd : BReg) (e : Failure) (k : Nat) (s : State) :
    completeB rd (.error e) k s = .next (s.raise e) := rfl

/-- The four ways a command can leave the state: a failure the matrix lists for it; a value, below the register's bound where the
registers are, in its X destination; a string, no longer than a buffer where the lengths are, in its B destination; or, for GENPRIME
alone, a rejected candidate. -/
inductive Answer (i : Instr) (s : State) : State → Prop where
  | failed (e : Failure) (h : e ∈ failureMatrix i) : Answer i s (s.raise e)
  | wroteX (rd : XReg) (v k : Nat) (hd : destX i = some rd)
      (hv : s.registersFit → v < 2 ^ (8 * s.cfg.xBytes)) : Answer i s ((s.takeDraws k).writeX rd v).finish
  | wroteB (rd : BReg) (v : List Byte) (k : Nat) (hd : destB i = some rd)
      (hv : s.lengthsFit → v.length ≤ s.cfg.bufBytes) : Answer i s ((s.takeDraws k).writeB rd v).finish
  | retried (rd rs1 : XReg) (k : Nat) (hi : i = .genprime rd rs1) : Answer i s (s.takeDraws k)

theorem pow_bits_pos (s : State) : 1 < 2 ^ (8 * s.cfg.xBytes) := by
  have := s.cfg.valid.1.1
  exact Nat.one_lt_two_pow (by omega)

theorem bool_fits (s : State) (b : Bool) : b.toNat < 2 ^ (8 * s.cfg.xBytes) :=
  Nat.lt_of_le_of_lt (Bool.toNat_le b) (pow_bits_pos s)

/-- Every execution answers a next state, in one of the four ways. -/
theorem exec_answers (i : Instr) (s : State) : ∃ t, exec i s = .next t ∧ Answer i s t := by
  cases i with
  | gcd rd rs1 rs2 =>
    refine ⟨_, rfl, .wroteX rd _ 0 rfl fun h => Nat.lt_of_le_of_lt (euclid_le _ _) ?_⟩
    exact Nat.max_lt.2 ⟨h rs1, h rs2⟩
  | modinv rd rs1 rs2 =>
    rcases modInverse_cases (s.readX rs1) (s.readX rs2) with h | h | ⟨r, hr, h⟩ <;> rw [exec, execModinv, h]
    · exact ⟨_, rfl, .failed _ (by simp [failureMatrix])⟩
    · exact ⟨_, rfl, .failed _ (by simp [failureMatrix])⟩
    · exact ⟨_, rfl, .wroteX rd r 0 rfl fun h => Nat.lt_trans hr (h rs2)⟩
  | modexp rd rs1 rs2 rs3 =>
    rw [exec, execModexp, modExp]
    split
    · exact ⟨_, rfl, .failed _ (by simp [failureMatrix])⟩
    · next h =>
      exact ⟨_, rfl, .wroteX rd _ 0 rfl fun hf =>
        Nat.lt_trans (modPower_lt (Nat.pos_of_ne_zero h) _ _) (hf rs3)⟩
  | bytelen rd rs1 =>
    refine ⟨_, rfl, .wroteX rd _ 0 rfl fun h => ?_⟩
    refine Nat.lt_of_le_of_lt (byteLen_le_of_lt (h rs1)) ?_
    refine Nat.lt_of_le_of_lt (Nat.le_mul_of_pos_left _ (by omega : 0 < 8)) Nat.lt_two_pow_self
  | isprime rd rs1 rs2 => exact ⟨_, rfl, .wroteX rd _ _ rfl fun _ => bool_fits s _⟩
  | genprime rd rs1 =>
    rw [exec, execGenprime]
    dsimp only
    split
    · exact ⟨_, rfl, .failed _ (by simp [failureMatrix])⟩
    · next hlo =>
      split
      · exact ⟨_, rfl, .failed _ (by simp [failureMatrix])⟩
      · next hhi =>
        split
        · refine ⟨_, rfl, .wroteX rd _ _ rfl fun _ => ?_⟩
          rw [minPrimeBits] at hlo
          have h2 : 0 < 2 ^ s.readX rs1 := Nat.two_pow_pos _
          have h3 := (randRange_mem (r := s.upcoming 0) (Nat.zero_le (2 ^ s.readX rs1 - 1))).2
          refine Nat.lt_of_lt_of_le (candidate_lt (by omega) (by omega)) ?_
          exact Nat.pow_le_pow_right (by omega) (by omega)
        · exact ⟨_, rfl, .retried rd rs1 _ rfl⟩
  | mgf1 rd rs1 rs2 =>
    rw [exec, execMgf1]
    split
    · exact ⟨_, rfl, .failed _ (by simp [failureMatrix])⟩
    · exact ⟨_, rfl, .wroteB rd _ 0 rfl fun _ => by rw [mgf1_length]; omega⟩
  | oaepenc rd rs1 rs2 rs3 =>
    rw [exec, execOaepenc]
    split
    · exact ⟨_, rfl, .failed _ (by simp [failureMatrix])⟩
    · split
      · exact ⟨_, rfl, .failed _ (by simp [failureMatrix])⟩
      · refine ⟨_, rfl, .wroteB rd _ 1 rfl fun _ => ?_⟩
        rw [oaepBlock_length (randBytes_length _ _) (by omega)]
        omega
  | oaepdec rd rs1 rs2 rs3 =>
    rw [exec, execOaepdec]
    split
    · next m h =>
      refine ⟨_, rfl, .wroteB rd m 0 rfl fun hf => ?_⟩
      have h1 := oaepMessage_length h
      rw [State.readB_length] at h1
      exact Nat.le_trans h1 (hf rs1)
    · exact ⟨_, rfl, .failed _ (by simp [failureMatrix])⟩
  | pssenc rd rs1 rs2 rs3 =>
    rw [exec, execPssenc]
    split
    · exact ⟨_, rfl, .failed _ (by simp [failureMatrix])⟩
    · split
      · exact ⟨_, rfl, .failed _ (by simp [failureMatrix])⟩
      · refine ⟨_, rfl, .wroteB rd _ _ rfl fun _ => ?_⟩
        rw [pssBlock_length (by rw [randBytes_length]; omega)]
        omega
  | pssver rd rs1 rs2 rs3 rs4 => exact ⟨_, rfl, .wroteX rd _ 0 rfl fun _ => bool_fits s _⟩
  | os2ip rd rs1 =>
    rw [exec, execOs2ip]
    split
    · exact ⟨_, rfl, .failed _ (by simp [failureMatrix])⟩
    · next h =>
      refine ⟨_, rfl, .wroteX rd _ 0 rfl fun _ => ?_⟩
      rw [Nat.pow_mul]
      exact (byteLen_le_iff _ _).1 (by omega)
  | i2osp rd rs1 rs2 =>
    rw [exec, execI2osp]
    split
    · exact ⟨_, rfl, .failed _ (by simp [failureMatrix])⟩
    · split
      · exact ⟨_, rfl, .failed _ (by simp [failureMatrix])⟩
      · exact ⟨_, rfl, .wroteB rd _ 0 rfl fun _ => by rw [i2osp_length]; omega⟩

/-- The inversion of `exec`: cite it instead of unfolding a meaning. -/
theorem exec_inv {i : Instr} {s t : State} (h : exec i s = .next t) : Answer i s t := by
  obtain ⟨u, hu, ha⟩ := exec_answers i s
  rw [hu] at h
  cases h
  exact ha

/-- A padding command leaves its result or a failure's code, and nothing else of its work (60_exceptions.md R266, R255). -/
theorem exec_paddingLeaves {i : Instr} {s t : State} (hp : isPadding i = true) (h : exec i s = .next t) :
    PaddingLeaves s i t := by
  cases i with
  | mgf1 rd rs1 rs2 =>
    rw [exec, execMgf1] at h
    split at h <;> cases h
    · exact .failure _ _ (by simp [failureMatrix])
    · exact .mask rd rs1 rs2
  | oaepenc rd rs1 rs2 rs3 =>
    rw [exec, execOaepenc] at h
    split at h
    · cases h; exact .failure _ _ (by simp [failureMatrix])
    · split at h <;> cases h
      · exact .failure _ _ (by simp [failureMatrix])
      · exact .oaepBlock rd rs1 rs2 rs3
  | oaepdec rd rs1 rs2 rs3 =>
    rw [exec, execOaepdec] at h
    split at h
    · next m hm => cases h; exact .message rd rs1 rs2 rs3 m hm
    · cases h; exact .failure _ _ (by simp [failureMatrix])
  | pssenc rd rs1 rs2 rs3 =>
    rw [exec, execPssenc] at h
    split at h
    · cases h; exact .failure _ _ (by simp [failureMatrix])
    · split at h <;> cases h
      · exact .failure _ _ (by simp [failureMatrix])
      · exact .pssBlock rd rs1 rs2 rs3
  | pssver rd rs1 rs2 rs3 rs4 => cases h; exact .verdict rd rs1 rs2 rs3 rs4
  | gcd | modinv | modexp | bytelen | isprime | genprime | os2ip | i2osp => cases hp

end Sys2Proof.Machine
end

