-- ==== Sys2Proof/Laws/PerInstr.lean ====
section
/-! SUPPORT. The family of statements made for each command as syntax: its word passes the field-by-field check of 30_encoding.md R81
and R87, which knows nothing of the masks the decoder uses. -/

namespace Sys2Proof.Laws.Formed

/-- The word of a command is well formed. -/
def Statement (i : Instr) : Prop := (FormatC.ofWord (encode i)).wellFormed = true

theorem admits_x (r : XReg) : FieldClass.x.admits (BitVec.ofNat 4 r.val) = true := by
  revert r; decide

theorem admits_b (r : BReg) : FieldClass.b.admits (BitVec.ofNat 4 r.val) = true := by
  revert r; decide

theorem admits_unused : FieldClass.unused.admits 0#4 = true := by decide

theorem gcd (rd rs1 rs2 : XReg) : Statement (.gcd rd rs1 rs2) := by
  rw [Statement, encode, ofWord_assemble] <;>
    first | omega | simp [FormatC.wellFormed, fieldClasses, admits_x, admits_unused]

theorem modinv (rd rs1 rs2 : XReg) : Statement (.modinv rd rs1 rs2) := by
  rw [Statement, encode, ofWord_assemble] <;>
    first | omega | simp [FormatC.wellFormed, fieldClasses, admits_x, admits_unused]

theorem modexp (rd rs1 rs2 rs3 : XReg) : Statement (.modexp rd rs1 rs2 rs3) := by
  rw [Statement, encode, ofWord_assemble] <;>
    first | omega | simp [FormatC.wellFormed, fieldClasses, admits_x, admits_unused]

theorem bytelen (rd rs1 : XReg) : Statement (.bytelen rd rs1) := by
  rw [Statement, encode, ofWord_assemble] <;>
    first | omega | simp [FormatC.wellFormed, fieldClasses, admits_x, admits_unused]

theorem isprime (rd rs1 rs2 : XReg) : Statement (.isprime rd rs1 rs2) := by
  rw [Statement, encode, ofWord_assemble] <;>
    first | omega | simp [FormatC.wellFormed, fieldClasses, admits_x, admits_unused]

theorem genprime (rd rs1 : XReg) : Statement (.genprime rd rs1) := by
  rw [Statement, encode, ofWord_assemble] <;>
    first | omega | simp [FormatC.wellFormed, fieldClasses, admits_x, admits_unused]

theorem mgf1 (rd rs1 : BReg) (rs2 : XReg) : Statement (.mgf1 rd rs1 rs2) := by
  rw [Statement, encode, ofWord_assemble] <;>
    first | omega | simp [FormatC.wellFormed, fieldClasses, admits_x, admits_b, admits_unused]

theorem oaepenc (rd rs1 rs2 : BReg) (rs3 : XReg) : Statement (.oaepenc rd rs1 rs2 rs3) := by
  rw [Statement, encode, ofWord_assemble] <;>
    first | omega | simp [FormatC.wellFormed, fieldClasses, admits_x, admits_b, admits_unused]

theorem oaepdec (rd rs1 rs2 : BReg) (rs3 : XReg) : Statement (.oaepdec rd rs1 rs2 rs3) := by
  rw [Statement, encode, ofWord_assemble] <;>
    first | omega | simp [FormatC.wellFormed, fieldClasses, admits_x, admits_b, admits_unused]

theorem pssenc (rd rs1 : BReg) (rs2 rs3 : XReg) : Statement (.pssenc rd rs1 rs2 rs3) := by
  rw [Statement, encode, ofWord_assemble] <;>
    first | omega | simp [FormatC.wellFormed, fieldClasses, admits_x, admits_b, admits_unused]

theorem pssver (rd : XReg) (rs1 rs2 : BReg) (rs3 rs4 : XReg) : Statement (.pssver rd rs1 rs2 rs3 rs4) := by
  rw [Statement, encode, ofWord_assemble] <;>
    first | omega | simp [FormatC.wellFormed, fieldClasses, admits_x, admits_b]

theorem os2ip (rd : XReg) (rs1 : BReg) : Statement (.os2ip rd rs1) := by
  rw [Statement, encode, ofWord_assemble] <;>
    first | omega | simp [FormatC.wellFormed, fieldClasses, admits_x, admits_b, admits_unused]

theorem i2osp (rd : BReg) (rs1 rs2 : XReg) : Statement (.i2osp rd rs1 rs2) := by
  rw [Statement, encode, ofWord_assemble] <;>
    first | omega | simp [FormatC.wellFormed, fieldClasses, admits_x, admits_b, admits_unused]

end Sys2Proof.Laws.Formed
end

