-- ==== Sys2Proof/Laws/Port.lean ====
section
/-! SUPPORT. What a host access can do, said once (20_memory.md R58): cite these instead of unfolding the port. -/

namespace Sys2Proof.Machine

/-- An access of a width the engine has, at an offset of its window, is an access to the engine (R50, R51). -/
theorem accessOffset_base (P : Config.Params) {off n : Nat} (hoff : off < windowSize) (hn : n = 1 ∨ n = 2 ∨ n = 4) :
    accessOffset P (P.base + off) n = some off := by
  rw [accessOffset, if_pos ⟨hn, by omega, by omega⟩, Nat.add_sub_cancel_left]

theorem splice_length {w new : List Byte} {o : Nat} (h : o + new.length ≤ w.length) :
    (splice w o new).length = w.length := by
  simp only [splice, List.length_append, List.length_take, List.length_drop]
  omega

/-- Byte `b` of a spliced string. -/
theorem getD_splice {w new : List Byte} {o : Nat} (h : o + new.length ≤ w.length) (b : Nat) :
    (splice w o new).getD b 0 = if o ≤ b ∧ b < o + new.length then new.getD (b - o) 0 else w.getD b 0 := by
  simp only [splice, List.getD_eq_getElem?_getD, List.getElem?_append, List.length_take, List.length_append,
    List.getElem?_take, List.getElem?_drop]
  split_ifs <;> first | omega | rfl | (congr 2; omega)

@[simp] theorem State.windowBytes_length (s : State) (i : XReg) : (s.windowBytes i).length = s.cfg.xBytes :=
  i2osp_length _ _

/-- A host read changes nothing of the engine but HERR. -/
theorem State.hostRead_cases (s : State) (addr n : Nat) :
    ∃ h r d, s.hostRead addr n = { s with herr := h, rdata := r, drawn := d } := by
  rw [State.hostRead]
  split
  · exact ⟨s.herr, _, _, rfl⟩
  · split
    · exact ⟨s.herr, _, s.drawn, rfl⟩
    · exact ⟨true, _, _, rfl⟩

/-- The ways a host write can leave the state. -/
inductive Written (s : State) : State → Prop where
  /-- No access to the engine. -/
  | foreign : Written s s
  /-- Refused. -/
  | refused : Written s { s with herr := true }
  /-- CMD: the command is issued. -/
  | issued (w : Word) (hb : s.busy = false) (he : s.err = none) : Written s (s.issue w)
  /-- CTRL. -/
  | acknowledged (v : Word) : Written s (s.acknowledge v)
  /-- BLEN[j]. -/
  | length (j : BReg) (n : Nat) (hb : s.busy = false) (hn : n ≤ s.cfg.bufBytes) : Written s (s.writeLen j n)
  /-- The window of an integer register. -/
  | register (i : XReg) (v : Nat) (hb : s.busy = false) (hv : v < 2 ^ (8 * s.cfg.xBytes)) : Written s (s.writeX i v)
  /-- The data array of a buffer. -/
  | bytes (j : BReg) (o : Nat) (v : List Byte) (hb : s.busy = false) (ho : o + v.length ≤ s.cfg.bufBytes) :
    Written s { s with mem := Memory.writeBytes s.mem (bufferBase j + o) v }

theorem State.hostWrite_cases (s : State) (addr n : Nat) (v : Word) : Written s (s.hostWrite addr n v) := by
  rw [State.hostWrite]
  split
  · exact .foreign
  · split
    · next h =>
      rw [State.writePort] at h
      split at h
      · split at h
        · next hc => cases h; exact .issued v hc.2.1 hc.2.2
        · cases h
      · cases h
      · split at h
        · cases h; exact .acknowledged v
        · cases h
      · split at h
        · next hc => cases h; exact .length _ _ hc.2.1 hc.2.2
        · cases h
      · split at h
        · next i o _ hc =>
          cases h
          refine .register _ _ hc.1 ?_
          have hl := os2ip_lt (splice (s.windowBytes i) o (i2osp v.toNat n))
          rw [splice_length (by simpa using hc.2.2), State.windowBytes_length] at hl
          rwa [Nat.pow_mul]
        · cases h
      · split at h
        · next hc => cases h; exact .bytes _ _ _ hc.1 (by simpa using hc.2.2)
        · cases h
      · cases h
    · exact .refused

/-- What the issue of a word does (44_command_control.md R190, R191). -/
theorem State.issue_legal {s : State} {w : Word} {i : Instr} (h : decode w = .ok i) :
    s.issue w = { s with pend := w, busy := true } := by
  rw [State.issue, h]

theorem State.issue_illegal {s : State} {w : Word} {c : Illegal} (h : decode w = .error c) :
    s.issue w = { s with pend := w, busy := false, err := some .illegalCommand } := by
  rw [State.issue, h]
  rfl

end Sys2Proof.Machine
end

