-- ==== Sys2Proof/Laws/Script.lean ====
section
/-! SUPPORT. What the running of a script line is made of: cite these instead of unfolding the step (30_encoding.md R89). -/

namespace Sys2Proof.Machine

theorem andThen_next {α β : Type} (a : α) (f : α → Host.Outcome β Fault Refusal) : andThen (.next a) f = f a := rfl

/-- A sequel answers a next state only where what comes before it did. -/
theorem andThen_inv {α β : Type} {o : Host.Outcome α Fault Refusal} {f : α → Host.Outcome β Fault Refusal} {b : β}
    (h : andThen o f = .next b) : ∃ a, o = .next a ∧ f a = .next b := by
  cases o with
  | next a => exact ⟨a, rfl, h⟩
  | fault r => cases h
  | refused r => cases h

/-- What is waiting at the port does not enter a host read. -/
theorem State.hostRead_port (s : State) (p : List Event) (addr n : Nat) :
    State.hostRead { s with port := p } addr n = { s.hostRead addr n with port := p } := by
  have hr : ∀ off, State.readPort { s with port := p } off n = s.readPort off n := fun _ => rfl
  simp only [State.hostRead, hr]
  split
  · rfl
  · split <;> rfl

/-- What is waiting at the port does not enter a host write. -/
theorem State.hostWrite_port (s : State) (p : List Event) (addr n : Nat) (v : Word) :
    State.hostWrite { s with port := p } addr n v = { s.hostWrite addr n v with port := p } := by
  have hw : ∀ off, State.writePort { s with port := p } off n v =
      (s.writePort off n v).map fun t => { t with port := p } := by
    intro off
    have hi : State.issue { s with port := p } v = { s.issue v with port := p } := by
      simp only [State.issue]
      split <;> rfl
    simp only [State.writePort, hi]
    split <;> first | rfl | (split <;> rfl)
  simp only [State.hostWrite, hw]
  split
  · rfl
  · next off _ => cases s.writePort off n v <;> rfl

/-- A read that arrives is the host read, the port as it was. -/
theorem State.arrive_read (s : State) (addr n : Nat) : s.arrive (.read addr n) = .next (s.hostRead addr n) := rfl

/-- A write that arrives is the host write, the port as it was. -/
theorem State.arrive_write (s : State) (addr n : Nat) (v : Word) :
    s.arrive (.write addr n v) = .next (s.hostWrite addr n v) := rfl

/-- Performing accesses is performing the first, then the others. -/
theorem perform_read (s : State) (addr n : Nat) (rest : List Event) :
    perform (.read addr n :: rest) s =
      andThen (perform rest (s.hostRead addr n)) fun r => .next (r.1, (s.hostRead addr n).rdata :: r.2) := rfl

theorem perform_write (s : State) (addr n : Nat) (v : Word) (rest : List Event) :
    perform (.write addr n v :: rest) s =
      andThen (perform rest (s.hostWrite addr n v)) fun r => .next (r.1, (s.hostWrite addr n v).rdata :: r.2) := rfl

/-- Reads that only answer, each with the value `f` says, change nothing but the value last read; they answer those values in order. -/
theorem perform_reads (s : State) (f : Nat × Nat → Word) (l : List (Nat × Nat))
    (h : ∀ (r : Word), ∀ p ∈ l, State.hostRead { s with rdata := r } p.1 p.2 = { s with rdata := f p }) :
    ∀ r : Word, ∃ r', perform (l.map fun p => .read p.1 p.2) { s with rdata := r } =
      .next ({ s with rdata := r' }, l.map f) := by
  induction l with
  | nil => exact fun r => ⟨r, rfl⟩
  | cons p l ih =>
    intro r
    obtain ⟨r', hr⟩ := ih (fun r q hq => h r q (.tail _ hq)) (f p)
    refine ⟨r', ?_⟩
    rw [List.map_cons, perform_read, h r p (.head _), hr]
    rfl

/-- WAIT on an idle engine is one read of STATUS. -/
theorem await_idle (turns : Nat) {s : State} (h : s.busy = false) :
    await turns s =
      .next (s.hostRead (s.cfg.base + 0x000004) 4, .status (s.hostRead (s.cfg.base + 0x000004) 4).rdata) := by
  have ha : s.arrive .wait = .next (s.hostRead (s.cfg.base + 0x000004) 4) := by
    change (if s.busy = true then engineTurn { s with port := .wait :: s.port }
      else .next (s.hostRead (s.cfg.base + 0x000004) 4)) = _
    rw [if_neg (by simp [h])]
  cases turns <;> simp only [await, h, ha] <;> rfl

/-- WAIT on a busy engine is a turn of the engine, then WAIT again. -/
theorem await_busy (turns : Nat) {s : State} (h : s.busy = true) :
    await (turns + 1) s =
      andThen (engineTurn { s with port := .wait :: s.port }) fun t => await turns { t with port := s.port } := by
  simp only [await, State.arrive, step, h, if_true]

end Sys2Proof.Machine
end

