-- ==== Sys2Proof/Laws/Step.lean ====
section
/-! SUPPORT. What a step can do, said once: the engine's turn, a host read, a host write or the reset event (20_memory.md R61). -/

namespace Sys2Proof.Machine

/-- The ways the engine's turn can leave the state: idle, or the pending command executed. -/
inductive Turn (s : State) : State → Prop where
  | idle (hb : s.busy = false) : Turn s s
  | ran (i : Instr) (t : State) (hb : s.busy = true) (hd : decode s.pend = .ok i) (ha : Answer i s t) : Turn s t

theorem engineTurn_inv {s t : State} (h : engineTurn s = .next t) : Turn s t := by
  rw [engineTurn] at h
  split at h
  · next hb =>
    split at h
    · next i hd => exact .ran i t hb hd (exec_inv h)
    · cases h
  · next hb => cases h; exact .idle (by simpa using hb)

/-- The ways a step can leave the state; `p` is what is left at the port. -/
inductive Stepped (s : State) : State → Prop where
  | turn (p : List Event) (t : State) (ht : Turn { s with port := p } t) : Stepped s t
  | read (p : List Event) (addr n : Nat) : Stepped s (State.hostRead { s with port := p } addr n)
  | write (p : List Event) (addr n : Nat) (v : Word) : Stepped s (State.hostWrite { s with port := p } addr n v)
  | reset (p : List Event) : Stepped s (State.resetEvent { s with port := p })

/-- The inversion of `step`: cite it instead of unfolding the step. -/
theorem step_inv {s t : State} (h : step s = .next t) : Stepped s t := by
  rw [step] at h
  split at h
  · next hp => exact .turn s.port t (engineTurn_inv h)
  · cases h; exact .read _ _ _
  · cases h; exact .write _ _ _ _
  · exact .turn _ t (engineTurn_inv h)
  · split at h
    · exact .turn s.port t (engineTurn_inv h)
    · cases h; exact .read _ _ _
  · cases h; exact .reset _

/-- A run that has ended stays ended, whatever engine turns and resets are still to come (70_reset_and_hazards.md R283). -/
theorem State.runEnded_step {s : State} (h : s.runEnded) : ∃ t, step s = .next t ∧ t.runEnded := by
  obtain ⟨hp, hb⟩ := h
  cases hs : s.port with
  | nil => exact ⟨s, by simp [step, hs, engineTurn, hb], hp, hb⟩
  | cons e rest =>
    have hr : ∀ f ∈ rest, f.isHostAction = false := fun f hf => hp f (hs ▸ .tail _ hf)
    have he : e.isHostAction = false := hp e (hs ▸ .head _)
    cases e with
    | engine => exact ⟨{ s with port := rest }, by simp [step, hs, engineTurn, hb], hr, hb⟩
    | reset => exact ⟨State.resetEvent { s with port := rest }, by simp [step, hs], hr, rfl⟩
    | read | write | wait => cases he

/-- A run of `k + 1` steps begins with a step. -/
theorem run_succ (M : Host.Core) {s t : M.State} (h : M.step s = .next t) (k : Nat) : M.run (k + 1) s = M.run k t := by
  simp only [Host.Core.run, h]

end Sys2Proof.Machine
end

