-- ==== Sys2Proof/Tests/Slice0.lean ====
section
/-! SUPPORT. Tests. Expected values come from 95_test_vectors.md, or from the examples of the rule named; a test's comment gives the
vector. After them, for each statement with hypotheses, a state and operands that meet all of them. -/

namespace Sys2Proof.Tests

open Sys2Proof.Machine Sys2Proof.Claims

/-! ### The test machine: CFG-T of 95_test_vectors.md section 1 -/

/-- CFG-T. -/
def cfgT : Config.Params where
  xBytes := 16
  bufBytes := 64
  hLen := 4
  base := 0
  valid := by decide

/-- CFG-T from reset with some registers and buffers loaded and some draws ready. -/
def machine (regs : List (XReg × Nat)) (bufs : List (BReg × List Byte)) (draws : List Nat) : State :=
  bufs.foldl (fun s p => s.writeB p.1 p.2)
    (regs.foldl (fun s p => s.writeX p.1 p.2) { State.reset with cfg := cfgT, draws := draws })

/-- What is seen of the next state, if there is one. -/
def seen {α : Type} (o : Result) (f : State → α) : Option α :=
  match o with
  | .next t => some (f t)
  | .fault _ => none
  | .refused _ => none

/-- The test hash TOY4. -/
def toy4 (s : List Byte) : List Byte :=
  i2osp (s.foldl (fun h b => Nat.xor h b.toNat * 0x01000193 % 2 ^ 32) 0x811C9DC5) 4

/-- V30f. -/
theorem test_toy4 : toy4 [0x6D, 0x73, 0x67] = [0xE0, 0x80, 0x5F, 0x02] := by decide

/-! ### Well-formedness: each check refuses a term that fails it (R81, R83, R80) -/

theorem test_wellFormed_accepts :
    FormatC.wellFormed { opcode := 0x24, rd := 7, rs1 := 3, rs2 := 3, rs3 := 7, rs4 := 7, zero := 0 } = true := by
  decide
theorem test_wellFormed_opcode :
    FormatC.wellFormed { opcode := 0x05, rd := 0, rs1 := 0, rs2 := 0, rs3 := 0, rs4 := 0, zero := 0 } = false := by
  decide
theorem test_wellFormed_x :
    FormatC.wellFormed { opcode := 0x01, rd := 8, rs1 := 0, rs2 := 0, rs3 := 0, rs4 := 0, zero := 0 } = false := by
  decide
theorem test_wellFormed_b :
    FormatC.wellFormed { opcode := 0x30, rd := 0, rs1 := 4, rs2 := 0, rs3 := 0, rs4 := 0, zero := 0 } = false := by
  decide
theorem test_wellFormed_unused :
    FormatC.wellFormed { opcode := 0x01, rd := 0, rs1 := 0, rs2 := 0, rs3 := 1, rs4 := 0, zero := 0 } = false := by
  decide
theorem test_wellFormed_zero :
    FormatC.wellFormed { opcode := 0x01, rd := 0, rs1 := 0, rs2 := 0, rs3 := 0, rs4 := 0, zero := 1 } = false := by
  decide

/-! ### Decoding: V92a, one word a command, and V92b -/

theorem test_decode_gcd : decode 0x00010201 = .ok (.gcd 2 0 1) := by decide
theorem test_decode_modinv : decode 0x00010302 = .ok (.modinv 3 0 1) := by decide
theorem test_decode_modexp : decode 0x00213003 = .ok (.modexp 0 3 1 2) := by decide
theorem test_decode_bytelen : decode 0x00002404 = .ok (.bytelen 4 2) := by decide
theorem test_decode_isprime : decode 0x00020110 = .ok (.isprime 1 0 2) := by decide
theorem test_decode_genprime : decode 0x00001011 = .ok (.genprime 0 1) := by decide
theorem test_decode_mgf1 : decode 0x00073320 = .ok (.mgf1 3 3 7) := by decide
theorem test_decode_oaepenc : decode 0x00420121 = .ok (.oaepenc 1 0 2 4) := by decide
theorem test_decode_oaepdec : decode 0x00421022 = .ok (.oaepdec 0 1 2 4) := by decide
theorem test_decode_pssenc : decode 0x00650123 = .ok (.pssenc 1 0 5 6) := by decide
theorem test_decode_pssver : decode 0x06510724 = .ok (.pssver 7 0 1 5 6) := by decide
theorem test_decode_os2ip : decode 0x00001330 = .ok (.os2ip 3 1) := by decide
theorem test_decode_i2osp : decode 0x00043131 = .ok (.i2osp 1 3 4) := by decide
theorem test_decode_unknown_opcode : decode 0x00000005 = .error .unknownOpcode := by decide
theorem test_decode_zero_field : decode 0x10010201 = .error .zeroField := by decide
theorem test_decode_unused_field : decode 0x00110201 = .error .registerField := by decide
theorem test_decode_register_field : decode 0x00018201 = .error .registerField := by decide
theorem test_encode_pssver : encode (.pssver 7 0 1 5 6) = 0x06510724 := by decide
theorem test_decodeTableWord : decodeTableWord 32 0x00420121 = some (.oaepenc 1 0 2 4) := by decide

/-! ### Math kernel -/

/-- V1.2. -/
theorem test_gcd : seen (exec (.gcd 2 0 1) (machine [(0, 18), (1, 48)] [] [])) (·.readX 2) = some 6 := by decide
/-- V1.3. -/
theorem test_gcd_zeros : seen (exec (.gcd 2 0 1) (machine [(2, 9)] [] [])) (·.readX 2) = some 0 := by decide
/-- V2.3. -/
theorem test_modinv : seen (exec (.modinv 3 0 1) (machine [(0, 17), (1, 3120)] [] [])) (·.readX 3) = some 2753 := by
  decide +kernel
/-- V2.5, with the destination kept. -/
theorem test_modinv_no_inverse :
    seen (exec (.modinv 0 0 1) (machine [(0, 2), (1, 4)] [] [])) (fun t => (t.readX 0, t.err)) =
      some (2, some .noInverse) := by decide
/-- V3.1. -/
theorem test_modexp :
    seen (exec (.modexp 3 0 1 2) (machine [(0, 4), (1, 13), (2, 497)] [] [])) (·.readX 3) = some 445 := by
  decide +kernel
/-- V3.2: exponent 0 modulo 1. -/
theorem test_modexp_one :
    seen (exec (.modexp 3 0 1 2) (machine [(0, 7), (2, 1), (3, 9)] [] [])) (·.readX 3) = some 0 := by decide
/-- V4.4. -/
theorem test_bytelen : seen (exec (.bytelen 4 2) (machine [(2, 256)] [] [])) (·.readX 4) = some 2 := by decide
/-- V4.9. -/
theorem test_bytelen_top :
    seen (exec (.bytelen 2 2) (machine [(2, 2 ^ 128 - 1)] [] [])) (·.readX 2) = some 16 := by decide +kernel

/-! ### Primality -/

/-- V12.5: the second round fails, the third draw is not taken. -/
theorem test_isprime_draws :
    seen (exec (.isprime 1 0 2) (machine [(0, 1681), (2, 3)] [] [51, 2, 7])) (fun t => (t.readX 1, t.draws)) =
      some (0, [7]) := by decide +kernel
/-- V12.1: no rounds. -/
theorem test_isprime_no_rounds :
    seen (exec (.isprime 1 0 2) (machine [(0, 1681)] [] [5])) (fun t => (t.readX 1, t.draws)) = some (1, [5]) := by
  decide +kernel
/-- V20a, the accepted candidate with forty witnesses. -/
theorem test_genprime :
    seen (exec (.genprime 0 1) (machine [(1, 16)] [] (2 :: List.replicate 40 9))) (fun t => (t.readX 0, t.draws)) =
      some (32771, []) := by decide +kernel
/-- V20a, the rejected candidate 37429: its draw is taken, no witness is. -/
theorem test_genprime_rejected :
    seen (exec (.genprime 0 1) (machine [(1, 16)] [] [0x1234, 2])) (fun t => (t.readX 0, t.draws)) = some (0, [2]) := by
  decide +kernel

/-! ### Padding, the schemes under TOY4 and the commands where no hash is reached -/

/-- V31.8. -/
theorem test_mgf1 : mgf1 toy4 [0x73, 0x65, 0x65, 0x64] 10 =
    [0xAB, 0x9F, 0xDB, 0x6C, 0xAC, 0x9F, 0xDC, 0xFF, 0xAD, 0x9F] := by decide +kernel
/-- V31.13. -/
theorem test_mgf1_range :
    seen (exec (.mgf1 1 0 0) (machine [(0, 65)] [] [])) (·.err) = some (some .rangeError) := by decide
/-- V41.5, the label "lbl". -/
theorem test_oaepBlock : oaepBlock toy4 4 [0x68, 0x69] [0x6C, 0x62, 0x6C] 16 [0xA1, 0xB2, 0xC3, 0xD4] =
    [0x00, 0x44, 0x39, 0xA7, 0x18, 0x74, 0x98, 0x5C, 0x68, 0x4D, 0xC6, 0x47, 0x7A, 0x4D, 0xAE, 0x2C] := by
  decide +kernel
/-- V42.6: RangeError comes before MessageTooLarge. -/
theorem test_oaepenc_order :
    seen (exec (.oaepenc 1 0 2 4) (machine [(4, 65)] [(0, List.replicate 60 1)] [3])) (fun t => (t.err, t.draws)) =
      some (some .rangeError, [3]) := by decide +kernel
/-- V44.1: leading zeros of the message survive. -/
theorem test_oaepMessage : oaepMessage toy4 4
    [0x00, 0x96, 0x2A, 0x2D, 0x43, 0xCF, 0xDA, 0xD4, 0xC8, 0x4C, 0xC6, 0x47, 0x7A, 0x4C, 0xC6, 0x44] [] 16 =
      some [0x00, 0x00, 0x00, 0x00, 0x00, 0x01] := by decide +kernel
/-- V43.7: a nonzero byte inside PS. -/
theorem test_oaepMessage_strict : oaepMessage toy4 4
    [0x00, 0x21, 0xE9, 0x17, 0xA5, 0xCF, 0xDA, 0xD4, 0xC8, 0x4D, 0xC4, 0x47, 0x7B, 0x24, 0xAF, 0x45] [] 16 = none := by
  decide +kernel
/-- V61.3: seven bits cleared. -/
theorem test_pssBlock : pssBlock toy4 4 [0x6D, 0x73, 0x67] 57 [0x5A, 0x5B] =
    [0x00, 0xC6, 0xA0, 0x23, 0xE5, 0xA5, 0xAB, 0xBC] := by decide +kernel
/-- V62.8: RangeError before the other check. -/
theorem test_pssenc_range :
    seen (exec (.pssenc 1 0 5 6) (machine [(5, 513), (6, 2)] [] [])) (·.err) = some (some .rangeError) := by decide
/-- V63.15: a smaller emBits of the same length still verifies. -/
theorem test_pssConsistent :
    pssConsistent toy4 4 [0x6D, 0x73, 0x67] [0x18, 0xC6, 0xA0, 0x23, 0xE5, 0xA5, 0xAB, 0xBC] 61 2 = true := by
  decide +kernel
/-- V63.18: check (d). -/
theorem test_pssConsistent_top_bits :
    pssConsistent toy4 4 [0x6D, 0x73, 0x67] [0x18, 0xC6, 0xA0, 0x23, 0xE5, 0xA5, 0xAB, 0xBC] 57 2 = false := by
  decide +kernel

/-! ### Conversion -/

/-- V80.8: 17 bytes with a leading zero fit 16. -/
theorem test_os2ip :
    seen (exec (.os2ip 3 1) (machine [] [(1, 0x00 :: List.replicate 16 0xFF)] [])) (·.readX 3) =
      some (2 ^ 128 - 1) := by decide +kernel
/-- V80.9. -/
theorem test_os2ip_range :
    seen (exec (.os2ip 3 1) (machine [(3, 5)] [(1, 0x01 :: List.replicate 16 0x00)] [])) (fun t => (t.readX 3, t.err)) =
      some (5, some .rangeError) := by decide +kernel
/-- V81.8. -/
theorem test_i2osp :
    seen (exec (.i2osp 1 3 4) (machine [(3, 65537), (4, 4)] [(1, [9, 9, 9, 9, 9, 9])] []))
      (fun t => (t.readB 1, t.readData 1 5)) = some ([0x00, 0x01, 0x00, 0x01], 0) := by decide +kernel
/-- V81.9. -/
theorem test_i2osp_range :
    seen (exec (.i2osp 1 3 4) (machine [(3, 65537), (4, 2)] [] [])) (·.err) = some (some .rangeError) := by
  decide +kernel

/-! ### The host window -/

/-- V91a.12: two bytes of the window of X0. -/
theorem test_write_register_window :
    ((machine [(0, 0x80000000000000000000000000010001)] [] []).hostWrite 0x010002 2 0xBEEF).readX 0 =
      0x8000BEEF000000000000000000010001 := by decide +kernel
/-- V91a.16: misaligned. -/
theorem test_write_misaligned :
    ((machine [] [] []).hostWrite 0x010001 2 0x1234).statusWord = 0x00000002 := by decide
/-- V91b.5: two bytes of a buffer, the first the more significant. -/
theorem test_read_buffer_window :
    ((machine [] [(0, [0x73, 0x65, 0x65, 0x64])] []).hostRead 0x100002 2).rdata = 0x6564 := by decide
/-- V90a.11 and V90a.12: the status word after ZeroModulus and a refused command. -/
theorem test_status_after_failure :
    seen (exec (.modinv 3 0 1) (machine [(0, 48), (3, 0xBBBB)] [] []))
      (fun t => (t.statusWord, (t.hostWrite 0 4 0x00010201).statusWord)) = some (0x00000300, 0x00000302) := by decide
/-- V90a.17: an illegal word fails at once. -/
theorem test_illegal_issue : ((machine [] [] []).hostWrite 0 4 0).statusWord = 0x00000100 := by decide
/-- V90a.8, from the placed word. -/
theorem test_step_runs_word :
    seen (step ((machine [(0, 48), (1, 18)] [] []).withFetchWord 32 0x00010201)) (fun t => (t.readX 2, t.busy)) =
      some (6, false) := by decide
/-- What a line gives the host. -/
def observed (o : Host.Outcome (State × Observed) Fault Refusal) : Option Observed :=
  match o with
  | .next r => some r.2
  | .fault _ => none
  | .refused _ => none

/-- R89, ERR?: the code alone, with HERR set beside it. -/
theorem test_line_err :
    observed (runLine 0 .err { machine [] [] [] with err := some .zeroModulus, herr := true }) = some (.code 0x03) := by
  decide
/-- R89, RDB: as many bytes as the first read answers. -/
theorem test_line_rdb :
    observed (runLine 0 (.rdb 3) (machine [] [(3, [0x00, 0x73])] [])) = some (.string [0x00, 0x73]) := by decide +kernel
/-- R89, RDX, in P1's step 6. -/
theorem test_line_rdx : observed (runLine 0 (.rdx 3) (machine [(3, 2790)] [] [])) = some (.number 2790) := by
  decide +kernel

/-- The reset memory has the canonical form. -/
theorem test_reset_memory : Memory.wf State.reset.mem = true := rfl


/-! ### Witnesses: a state and operands that meet the hypotheses of each statement -/

/-- GCD X2, X0, X1 pending, the engine's turn next. -/
def pendingGcd : State :=
  { machine [(0, 48), (1, 18)] [(3, [1, 2])] [] with pend := 0x00010201, busy := true, port := [.engine] }

/-- Idle, X0 holding the largest value of a register, B3 two bytes. -/
def idle : State := machine [(0, 2 ^ 128 - 1), (1, 18)] [(3, [1, 2])] []

theorem test_pendingGcd_inv : pendingGcd.Inv := by
  refine ⟨?_, ?_, ?_, fun _ => ⟨.gcd 2 0 1, by decide⟩⟩
  · unfold State.registersFit; decide
  · unfold State.lengthsFit; decide
  · unfold State.busyClean; decide

theorem test_idle_inv : idle.Inv := by
  refine ⟨?_, ?_, ?_, ?_⟩
  · unfold State.registersFit; decide +kernel
  · unfold State.lengthsFit; decide
  · unfold State.busyClean; decide
  · intro h; exact absurd h (by decide)

theorem test_pendingGcd_memory : pendingGcd.memoryFits := by
  refine ⟨by decide, ?_⟩
  unfold pendingGcd
  decide

/-- EncodeOfDecode, at the word of PSSVER with every field at its top: `V92a`. -/
theorem test_witness_EncodeOfDecode : decode 0x07733724 = .ok (.pssver 7 3 3 7 7) := by decide

/-- LengthsOfNumbers, the bounds of `L` at 255 and 256. -/
theorem test_witness_LengthsOfNumbers :
    (0 < 255 ∧ 0 < 8 ∧ 2 ^ (8 - 1) ≤ 255 ∧ 255 < 2 ^ 8) ∧ (0 < 256 ∧ 0 < 9 ∧ 2 ^ (9 - 1) ≤ 256 ∧ 256 < 2 ^ 9) := by
  decide

/-- IntegersAndStrings, the largest value of one byte and the empty string. -/
theorem test_witness_IntegersAndStrings :
    (255 < 256 ^ 1 ∧ List.length [(0xFF : Byte)] = 1 ∧ os2ip [0xFF] = 255) ∧
      (0 < 256 ^ 0 ∧ List.length ([] : List Byte) = 0 ∧ os2ip [] = 0) := by decide

/-- BufferWrite: a full buffer and an empty one, with a place for each clause. -/
theorem test_witness_BufferWrite :
    (List.replicate 64 (0x5A : Byte)).length ≤ idle.cfg.bufBytes ∧ 63 < (List.replicate 64 (0x5A : Byte)).length ∧
      ([] : List Byte).length ≤ idle.cfg.bufBytes ∧ ([] : List Byte).length ≤ 63 ∧ 63 < idle.cfg.bufBytes ∧
      (2 : BReg) ≠ 3 ∧ bufferBase 3 - 1 < bufferBase 3 ∧ bufferBase 3 + idle.cfg.bufBytes ≤ bufferBase 3 + 64 := by
  decide

/-- ResetEventAbandons, with a command pending. -/
theorem test_witness_ResetEventAbandons :
    ({ pendingGcd with port := [.reset, .engine] } : State).port = .reset :: [.engine] ∧ pendingGcd.busy = true :=
  ⟨rfl, rfl⟩

/-- InvariantKept and MemoryFormKept, on the step that completes GCD. -/
theorem test_witness_InvariantKept :
    pendingGcd.Inv ∧ pendingGcd.memoryFits ∧ ∃ t, step pendingGcd = .next t ∧ t.readX 2 = 6 :=
  ⟨test_pendingGcd_inv, test_pendingGcd_memory, _, rfl, by decide⟩

/-- InvariantReachable: issue, completion, the read of STATUS. -/
theorem test_witness_InvariantReachable :
    ∃ t : State, core.run 3
      ({ State.reset with cfg := cfgT, port := scriptCommand cfgT (.gcd 2 0 1) ++ scriptWait, draws := [] } : State) =
        .next t ∧ t.pend = 0x00010201 ∧ t.port = [] := ⟨_, rfl, by decide, by decide⟩

/-- StepAlwaysAnswers. -/
theorem test_witness_StepAlwaysAnswers : pendingGcd.Inv ∧ idle.Inv := ⟨test_pendingGcd_inv, test_idle_inv⟩

/-- StepRunsPending, its three ports with a command pending and with none, and a read and a write at the port. -/
theorem test_witness_StepRunsPending :
    (pendingGcd.busy = true ∧ decode pendingGcd.pend = .ok (.gcd 2 0 1) ∧ pendingGcd.port = .engine :: [] ∧
      ({ pendingGcd with port := [.wait] } : State).port = .wait :: [] ∧
      ({ pendingGcd with port := [] } : State).port = []) ∧
    (idle.busy = false ∧ ({ idle with port := [.engine] } : State).port = .engine :: [] ∧
      ({ idle with port := [.wait, .reset] } : State).port = .wait :: [.reset] ∧ idle.port = []) ∧
    ({ idle with port := [.read 0x13003C 4] } : State).port = .read 0x13003C 4 :: [] ∧
    ({ idle with port := [.write 0x010000 4 7, .wait] } : State).port = .write 0x010000 4 7 :: [.wait] := by
  refine ⟨⟨rfl, by decide, rfl, rfl, rfl⟩, ⟨rfl, rfl, rfl, rfl⟩, rfl, rfl⟩

/-- IssueRule: busy; idle with a legal word; idle with an illegal word; a failure outstanding. -/
theorem test_witness_IssueRule :
    (∀ w, ({ idle with port := [.write idle.cfg.base 4 w] } : State).port = .write idle.cfg.base 4 w :: []) ∧
      pendingGcd.busy = true ∧ idle.busy = false ∧ idle.err = none ∧ decode 0x00010201 = .ok (.gcd 2 0 1) ∧
      decode 0 = .error .unknownOpcode ∧ (idle.raise .noInverse).err ≠ none :=
  ⟨fun _ => rfl, rfl, rfl, rfl, by decide, by decide, by decide⟩

/-- CallProtocol. -/
theorem test_witness_CallProtocol :
    idle.busy = false ∧ idle.err = none ∧
      ({ idle with port := scriptCommand idle.cfg (.gcd 2 0 1) ++ scriptWait ++ [.reset] } : State).port =
        scriptCommand idle.cfg (.gcd 2 0 1) ++ scriptWait ++ [.reset] := ⟨rfl, rfl, rfl⟩

/-- TurnCompletes. -/
theorem test_witness_TurnCompletes : ∀ rd rs1, Instr.gcd 2 0 1 ≠ .genprime rd rs1 := by decide

/-- FrameXDestination, a result and a failure. -/
theorem test_witness_FrameXDestination :
    destX (.modinv 3 0 1) = some 3 ∧
      (∃ t, exec (.modinv 3 0 1) (machine [(0, 3), (1, 11)] [] []) = .next t ∧ t.readX 3 = 4) ∧
      ∃ t, exec (.modinv 3 0 1) (machine [(0, 3)] [] []) = .next t ∧
        t.err ≠ (machine [(0, 3)] [] []).err ∧ (2 : XReg) ≠ 3 :=
  ⟨rfl, ⟨_, rfl, by decide⟩, _, rfl, by decide, by decide⟩

/-- FrameBDestination, a result and a failure, with an address on either side of the destination. -/
theorem test_witness_FrameBDestination :
    idle.lengthsFit ∧ destB (.i2osp 1 1 1) = some 1 ∧
      (∃ t, exec (.i2osp 1 1 1) idle = .next t ∧ t.readLen 1 = 18) ∧
      (∃ t, exec (.i2osp 1 0 1) { idle with x := idle.x.set 1 1 } = .next t ∧ t.err ≠ idle.err) ∧
      bufferBase 1 - 1 < bufferBase 1 ∧ bufferBase 1 + idle.cfg.bufBytes ≤ bufferBase 2 ∧ (3 : BReg) ≠ 1 :=
  ⟨test_idle_inv.2.1, rfl, ⟨_, rfl, by decide⟩, ⟨_, rfl, by decide +kernel⟩, by decide, by decide, by decide⟩

/-- FailureOnlySetsErr and FailuresListed. -/
theorem test_witness_FailuresListed :
    ∃ t, exec (.modexp 3 0 1 2) idle = .next t ∧ t.err = some .zeroModulus ∧ idle.err = none ∧ t.err ≠ idle.err :=
  ⟨_, rfl, by decide, rfl, by decide⟩

/-- WindowMap: the offsets inside the control words, the first and the last of them among these, and V91c.9. -/
theorem test_witness_WindowMap_inside :
    (0x000001 < 0x000020 ∧ 0x000001 % 4 ≠ 0) ∧ (0x00001F < 0x000020 ∧ 0x00001F % 4 ≠ 0) ∧
      regionAt 0x000001 = .reserved ∧ regionAt 0x000006 = .reserved ∧ regionAt 0x00001F = .reserved := by decide

/-- WindowMap: the ends of every range. -/
theorem test_witness_WindowMap :
    regionAt 0x00001C = .blen 3 ∧ regionAt 0x000012 = .reserved ∧ regionAt 0x000020 = .reserved ∧
      regionAt 0x00FFFF = .reserved ∧ regionAt 0x010000 = .xWindow 0 0 ∧ regionAt 0x08FFFF = .xWindow 7 0xFFFF ∧
      regionAt 0x090000 = .reserved ∧ regionAt 0x0FFFFF = .reserved ∧ regionAt 0x100000 = .bWindow 0 0 ∧
      regionAt 0x13FFFF = .bWindow 3 0xFFFF := by decide

/-- ControlReads and LengthWrite: the largest length, and one above it. -/
theorem test_witness_LengthWrite :
    idle.busy = false ∧ (64 : Word).toNat ≤ idle.cfg.bufBytes ∧ idle.cfg.bufBytes < (65 : Word).toNat ∧
      pendingGcd.busy = true := by decide

/-- RefusedAccesses: admitted and refused reads on either side of each boundary. -/
theorem test_witness_RefusedAccesses_reads :
    refusedRead idle 0x00000C 4 ∧ refusedRead idle 0x000000 2 ∧ ¬ refusedRead idle 0x000000 4 ∧
      ¬ refusedRead idle 0x01000C 4 ∧ refusedRead idle 0x01000E 4 ∧ ¬ refusedRead idle 0x01000F 1 ∧
      refusedRead idle 0x010010 1 ∧ ¬ refusedRead idle 0x10003C 4 ∧ refusedRead idle 0x100040 1 ∧
      refusedRead pendingGcd 0x010000 4 ∧ refusedRead pendingGcd 0x000010 4 ∧ ¬ refusedRead pendingGcd 0x000004 4 := by
  have h0 : regionAt 0x00000C = .reserved ∧ regionAt 0x000000 = .cmd ∧ regionAt 0x01000C = .xWindow 0 12 ∧
      regionAt 0x01000E = .xWindow 0 14 ∧ regionAt 0x01000F = .xWindow 0 15 ∧ regionAt 0x010010 = .xWindow 0 16 ∧
      regionAt 0x10003C = .bWindow 0 60 ∧ regionAt 0x100040 = .bWindow 0 64 ∧ regionAt 0x010000 = .xWindow 0 0 ∧
      regionAt 0x000010 = .blen 0 ∧ regionAt 0x000004 = .status := by decide
  simp only [refusedRead, badDataAccess, h0]
  decide

theorem test_witness_RefusedAccesses_writes :
    refusedWrite idle 0x000004 4 0 ∧ ¬ refusedWrite idle 0x000010 4 64 ∧ refusedWrite idle 0x000010 4 65 ∧
      ¬ refusedWrite idle 0x000000 4 0 ∧ refusedWrite pendingGcd 0x000000 4 0 ∧
      refusedWrite (idle.raise .noInverse) 0x000000 4 0 ∧ ¬ refusedWrite pendingGcd 0x000008 4 3 ∧
      ¬ refusedWrite idle 0x01000C 4 0 ∧ refusedWrite idle 0x010010 4 0 := by
  have h0 : regionAt 0x000004 = .status ∧ regionAt 0x000010 = .blen 0 ∧ regionAt 0x000000 = .cmd ∧
      regionAt 0x000008 = .ctrl ∧ regionAt 0x01000C = .xWindow 0 12 ∧ regionAt 0x010010 = .xWindow 0 16 := by decide
  simp only [refusedWrite, badDataAccess, h0]
  decide

/-- BusyLocksOperands. -/
theorem test_witness_BusyLocksOperands : pendingGcd.busy = true := rfl

/-- RegisterWindow, BufferWindow and MultiByteWrite: the last word of each window. -/
theorem test_witness_Windows :
    idle.busy = false ∧ 12 % 4 = 0 ∧ 12 + 4 ≤ idle.cfg.xBytes ∧ 60 % 4 = 0 ∧ 60 + 4 ≤ idle.cfg.bufBytes ∧
      0x08000C < 0x140000 ∧ regionAt 0x08000C = .xWindow 7 12 ∧ ¬ badDataAccess 0x08000C 12 4 idle.cfg.xBytes ∧
      0x13003C < 0x140000 ∧ regionAt 0x13003C = .bWindow 3 60 ∧ ¬ badDataAccess 0x13003C 60 4 idle.cfg.bufBytes := by
  unfold badDataAccess; decide

/-- ForeignAccess: below the window, above it, and a width that is none. -/
theorem test_witness_ForeignAccess :
    (∃ P : Config.Params, 0x1FFFFF < P.base) ∧ idle.cfg.base + 0x140000 ≤ 0x140000 ∧ (8 ≠ 1 ∧ 8 ≠ 2 ∧ 8 ≠ 4) :=
  ⟨⟨{ cfgT with base := 0x200000, valid := by decide }, by decide⟩, by decide, by decide⟩

/-- ScriptLoadsRegister, with the largest value. -/
theorem test_witness_ScriptLoadsRegister :
    idle.busy = false ∧ 2 ^ 128 - 1 < 2 ^ (8 * idle.cfg.xBytes) ∧
      ({ idle with port := scriptWrx idle.cfg 7 (2 ^ 128 - 1) ++ [.engine] } : State).port =
        scriptWrx idle.cfg 7 (2 ^ 128 - 1) ++ [.engine] := ⟨rfl, by decide +kernel, rfl⟩

/-- ScriptLoadsBuffer, with a full buffer. -/
theorem test_witness_ScriptLoadsBuffer :
    idle.busy = false ∧ (List.replicate 64 (0x5A : Byte)).length ≤ idle.cfg.bufBytes ∧
      ({ idle with port := scriptWrb idle.cfg 3 (List.replicate 64 0x5A) ++ [.engine] } : State).port =
        scriptWrb idle.cfg 3 (List.replicate 64 0x5A) ++ [.engine] := ⟨rfl, by decide, rfl⟩

/-- ModinvCompletes: a result, also modulo 1, and the two failures. -/
theorem test_witness_Modinv :
    (0 < (machine [(0, 3), (1, 11)] [] []).readX 1 ∧
      Nat.gcd ((machine [(0, 3), (1, 11)] [] []).readX 0) ((machine [(0, 3), (1, 11)] [] []).readX 1) = 1) ∧
    (0 < (machine [(1, 1)] [] []).readX 1 ∧
      Nat.gcd ((machine [(1, 1)] [] []).readX 0) ((machine [(1, 1)] [] []).readX 1) = 1) ∧
    (machine [(0, 3)] [] []).readX 1 = 0 ∧
    (0 < (machine [(0, 2), (1, 4)] [] []).readX 1 ∧
      Nat.gcd ((machine [(0, 2), (1, 4)] [] []).readX 0) ((machine [(0, 2), (1, 4)] [] []).readX 1) ≠ 1) := by
  decide +kernel

/-- ModexpCompletes, its two clauses. -/
theorem test_witness_ModexpCompletes : 0 < (machine [(2, 1)] [] []).readX 2 ∧ (machine [] [] []).readX 2 = 0 := by decide

/-- IsprimeTrialDivision: 1, the largest small prime, and its square. -/
theorem test_witness_IsprimeTrialDivision :
    (machine [(0, 1)] [] []).readX 0 < 2 ∧ smallPrime ((machine [(0, 37)] [] []).readX 0) ∧
      2 ≤ (machine [(0, 1369)] [] []).readX 0 ∧ smallPrime 37 ∧ 37 ∣ (machine [(0, 1369)] [] []).readX 0 ∧
      (machine [(0, 1369)] [] []).readX 0 ≠ 37 := by
  have h : (machine [(0, 37)] [] []).readX 0 = 37 := by decide
  have h37 : smallPrime 37 := ⟨by norm_num, by norm_num⟩
  exact ⟨by decide, h ▸ h37, by decide, h37, ⟨37, by decide⟩, by decide⟩

/-- 1681 = 41 * 41 has no small prime factor. -/
theorem test_1681_survives : ∀ p, smallPrime p → ¬ p ∣ 1681 := by
  rintro p ⟨hp, hle⟩
  have := hp.two_le
  interval_cases p <;> omega

/-- 51 passes its round for 1681 and 2 does not (V11.12, V11.11). -/
theorem test_round_51 : passesRound 1681 51 := ⟨4, 105, by norm_num, by norm_num, .inl (by decide +kernel)⟩

theorem test_round_2 : ¬ passesRound 1681 2 := by
  rintro ⟨s, d, h, ho, hr⟩
  have hs : s = 4 := by
    rcases Nat.lt_or_ge s 5 with h5 | h5
    · interval_cases s <;> omega
    · obtain ⟨k, rfl⟩ := Nat.exists_eq_add_of_le h5
      rw [Nat.pow_add, Nat.mul_assoc] at h
      omega
  subst hs
  have hd : d = 105 := by omega
  subst hd
  revert hr
  decide +kernel

/-- IsprimeRounds: two rounds that pass, and a second round that fails. -/
theorem test_witness_IsprimeRounds :
    2 ≤ (machine [(0, 1681), (2, 2)] [] [51, 51]).readX 0 ∧
      (∀ p, smallPrime p → ¬ p ∣ (machine [(0, 1681), (2, 2)] [] [51, 51]).readX 0) ∧
      (∀ j < (machine [(0, 1681), (2, 2)] [] [51, 51]).readX 2,
        passesRound 1681 (witness (machine [(0, 1681), (2, 2)] [] [51, 51]) 1681 j)) ∧
      1 < (machine [(0, 1681), (2, 2)] [] [51, 2]).readX 2 ∧
      (∀ i < 1, passesRound 1681 (witness (machine [(0, 1681), (2, 2)] [] [51, 2]) 1681 i)) ∧
      ¬ passesRound 1681 (witness (machine [(0, 1681), (2, 2)] [] [51, 2]) 1681 1) := by
  have h : (machine [(0, 1681), (2, 2)] [] [51, 51]).readX 0 = 1681 := by decide
  refine ⟨by decide, h ▸ test_1681_survives, ?_, by decide, ?_, ?_⟩
  · have h2 : ∀ j < (machine [(0, 1681), (2, 2)] [] [51, 51]).readX 2,
        witness (machine [(0, 1681), (2, 2)] [] [51, 51]) 1681 j = 51 := by decide
    intro j hj
    rw [h2 j hj]
    exact test_round_51
  · have h2 : ∀ j < 1, witness (machine [(0, 1681), (2, 2)] [] [51, 2]) 1681 j = 51 := by decide
    intro j hj
    rw [h2 j hj]
    exact test_round_51
  · have h2 : witness (machine [(0, 1681), (2, 2)] [] [51, 2]) 1681 1 = 2 := by decide
    rw [h2]
    exact test_round_2

/-- IsprimeAcceptsPrimes: 41, the smallest number that reaches the rounds. -/
theorem test_witness_IsprimeAcceptsPrimes : ((machine [(0, 41), (2, 3)] [] []).readX 0).Prime := by
  have h : (machine [(0, 41), (2, 3)] [] []).readX 0 = 41 := by decide
  rw [h]; norm_num

/-- GenprimeCompletes, its first clause, 16 bits, the draw 2 (V20a). -/
theorem test_witness_GenprimeCompletes :
    16 ≤ (machine [(1, 16)] [] [2]).readX 1 ∧
      (machine [(1, 16)] [] [2]).readX 1 ≤ 8 * (machine [(1, 16)] [] [2]).cfg.xBytes ∧
      (firstCandidate (machine [(1, 16)] [] [2]) ((machine [(1, 16)] [] [2]).readX 1)).Prime := by
  have h : firstCandidate (machine [(1, 16)] [] [2]) ((machine [(1, 16)] [] [2]).readX 1) = 32771 := by decide +kernel
  refine ⟨by decide, by decide, ?_⟩
  rw [h]; norm_num

/-- 32777 = 73 * 449 has no small prime factor. -/
theorem test_32777_survives : ∀ p, smallPrime p → ¬ p ∣ 32777 := by
  rintro p ⟨hp, hle⟩
  have := hp.two_le
  interval_cases p <;> omega

/-- 1414 passes its round for 32777 and 2 does not (V20c; 1414 to the power 4097 is 1414, whose square is 32776). -/
theorem test_round_1414 : passesRound 32777 1414 :=
  ⟨3, 4097, by norm_num, by norm_num, .inr ⟨1, by norm_num, by decide +kernel⟩⟩

theorem test_round_2_of_32777 : ¬ passesRound 32777 2 := by
  rintro ⟨s, d, h, ho, hr⟩
  have hs : s = 3 := by
    rcases Nat.lt_or_ge s 4 with h4 | h4
    · interval_cases s <;> omega
    · obtain ⟨k, rfl⟩ := Nat.exists_eq_add_of_le h4
      rw [Nat.pow_add, Nat.mul_assoc] at h
      omega
  subst hs
  have hd : d = 4097 := by omega
  subst hd
  revert hr
  decide +kernel

/-- A GENPRIME of 16 bits with the draws given. -/
def searching (draws : List Nat) : State := machine [(1, 16)] [] draws

/-- GenprimeCompletes, its second clause: a composite that all forty witnesses pass (V20c). -/
theorem test_witness_GenprimeCompletes_composite :
    (∀ p, smallPrime p → ¬ p ∣ firstCandidate (searching (32777 :: List.replicate 40 1414)) 16) ∧
      ∀ j < 40, passesRound (firstCandidate (searching (32777 :: List.replicate 40 1414)) 16)
        (candidateWitness (searching (32777 :: List.replicate 40 1414)) 16 j) := by
  have h : firstCandidate (searching (32777 :: List.replicate 40 1414)) 16 = 32777 := by decide +kernel
  have hw : ∀ j < 40, candidateWitness (searching (32777 :: List.replicate 40 1414)) 16 j = 1414 := by decide +kernel
  rw [h]
  refine ⟨test_32777_survives, fun j hj => ?_⟩
  rw [hw j hj]
  exact test_round_1414

/-- GenprimeRetries, its second clause: the same candidate, the first witness failing, and the last. -/
theorem test_witness_GenprimeRetries_round :
    (firstCandidate (searching [32777, 2]) 16 = 32777 ∧ ¬ passesRound 32777 (candidateWitness (searching [32777, 2]) 16 0)) ∧
      firstCandidate (searching (32777 :: (List.replicate 39 1414 ++ [2]))) 16 = 32777 ∧
      (∀ i < 39, passesRound 32777 (candidateWitness (searching (32777 :: (List.replicate 39 1414 ++ [2]))) 16 i)) ∧
      ¬ passesRound 32777 (candidateWitness (searching (32777 :: (List.replicate 39 1414 ++ [2]))) 16 39) := by
  have h0 : candidateWitness (searching [32777, 2]) 16 0 = 2 := by decide +kernel
  have h1 : ∀ i < 39, candidateWitness (searching (32777 :: (List.replicate 39 1414 ++ [2]))) 16 i = 1414 := by
    decide +kernel
  have h2 : candidateWitness (searching (32777 :: (List.replicate 39 1414 ++ [2]))) 16 39 = 2 := by decide +kernel
  rw [h0, h2]
  refine ⟨⟨by decide +kernel, test_round_2_of_32777⟩, by decide +kernel, fun i hi => ?_, test_round_2_of_32777⟩
  rw [h1 i hi]
  exact test_round_1414

/-- GenprimeRetries, its first clause, 128 bits, the draw 0 gives `2^127 + 1`, which 3 divides (V20g). -/
theorem test_witness_GenprimeRetries :
    16 ≤ (machine [(1, 128)] [] [0]).readX 1 ∧
      (machine [(1, 128)] [] [0]).readX 1 ≤ 8 * (machine [(1, 128)] [] [0]).cfg.xBytes ∧ smallPrime 3 ∧
      3 ∣ firstCandidate (machine [(1, 128)] [] [0]) ((machine [(1, 128)] [] [0]).readX 1) := by
  have h : firstCandidate (machine [(1, 128)] [] [0]) ((machine [(1, 128)] [] [0]).readX 1) = 2 ^ 127 + 1 := by
    decide +kernel
  refine ⟨by decide, by decide +kernel, ⟨by norm_num, by norm_num⟩, ?_⟩
  rw [h]; norm_num

/-- GenprimeShape. -/
theorem test_witness_GenprimeShape :
    ∃ s t : State, s.busy = true ∧ s.err = none ∧ exec (.genprime 0 1) s = .next t ∧ t.busy = false ∧ t.err = none := by
  have h : seen (exec (.genprime 0 1) { machine [(1, 16)] [] (2 :: List.replicate 40 9) with busy := true })
      (fun t => (t.busy, t.err)) = some (false, none) := by decide +kernel
  refine ⟨{ machine [(1, 16)] [] (2 :: List.replicate 40 9) with busy := true }, ?_⟩
  cases hx : exec (.genprime 0 1) { machine [(1, 16)] [] (2 :: List.replicate 40 9) with busy := true } with
  | next t =>
    rw [hx] at h
    simp only [seen, Option.some.injEq, Prod.mk.injEq] at h
    exact ⟨t, rfl, by decide, rfl, h.1, h.2⟩
  | fault r => rw [hx] at h; simp [seen] at h
  | refused r => rw [hx] at h; simp [seen] at h

/-- GenprimeFails: the two values next to the admitted range. -/
theorem test_witness_GenprimeFails :
    (machine [(1, 15)] [] []).readX 1 < 16 ∧
      8 * (machine [(1, 129)] [] []).cfg.xBytes < (machine [(1, 129)] [] []).readX 1 := by decide +kernel

/-- MaskCompletes and MaskTruncates: the longest mask that fits, and one above. -/
theorem test_witness_MaskCompletes :
    (machine [(0, 64)] [] []).readX 0 ≤ (machine [(0, 64)] [] []).cfg.bufBytes ∧
      (machine [(0, 65)] [] []).cfg.bufBytes < (machine [(0, 65)] [] []).readX 0 ∧ 10 ≤ 64 := by decide

/-- Six bytes in B0 and `k` 16: the largest message for it (V41.2). -/
def sixBytes : State := machine [(4, 16)] [(0, [0x31, 0x32, 0x33, 0x34, 0x35, 0x36])] []

/-- OaepencCompletes. -/
theorem test_witness_OaepencCompletes :
    (sixBytes.readB 0).length + 2 * sixBytes.cfg.hLen + 2 ≤ sixBytes.readX 4 ∧
      sixBytes.readX 4 ≤ sixBytes.cfg.bufBytes := by decide

/-- OaepencFails: V42.5, and V42.2, one byte short of an empty message. -/
theorem test_witness_OaepencFails :
    (machine [(4, 65)] [] []).cfg.bufBytes < (machine [(4, 65)] [] []).readX 4 ∧
    (machine [(4, 9)] [] []).readX 4 ≤ (machine [(4, 9)] [] []).cfg.bufBytes ∧
    (machine [(4, 9)] [] []).readX 4 <
      ((machine [(4, 9)] [] []).readB 0).length + 2 * (machine [(4, 9)] [] []).cfg.hLen + 2 := by decide

/-- A block made of the message "hi" under the empty label, in B1. -/
def withOaepBlock : State :=
  (machine [(4, 16)] [] []).writeB 1 (oaepBlock (Config.hash cfgT) 4 [0x68, 0x69] [] 16 (zeros 4))

/-- OaepdecInverts. -/
theorem test_witness_OaepdecInverts :
    isOaepBlock withOaepBlock.cfg [0x68, 0x69] (withOaepBlock.readB 2) (withOaepBlock.readX 4)
      (withOaepBlock.readB 1) := by
  refine ⟨by decide, zeros 4, rfl, ?_⟩
  rw [withOaepBlock, State.readB_writeB]
  rfl

/-- 16 bytes that begin with 01 in B1 and `k` 16 (V43.4). -/
def badBlock : State := machine [(4, 16)] [(1, 0x01 :: List.replicate 15 0)] []

/-- OaepdecRejects: such a block, and an empty buffer with `k` 0. -/
theorem test_witness_OaepdecRejects :
    (∀ m, ¬ isOaepBlock badBlock.cfg m (badBlock.readB 2) (badBlock.readX 4) (badBlock.readB 1)) ∧
      ∀ m, ¬ isOaepBlock (machine [] [] []).cfg m ((machine [] [] []).readB 2) ((machine [] [] []).readX 4)
        ((machine [] [] []).readB 1) := by
  refine ⟨?_, ?_⟩
  · rintro m ⟨-, seed, -, h⟩
    have h1 := congrArg List.head? h
    rw [show (badBlock.readB 1).head? = some 1 by decide +kernel] at h1
    simp [oaepBlock] at h1
  · rintro m ⟨h, -⟩
    rw [show (machine [] [] []).readX 4 = 0 by decide] at h
    omega

/-- emBits in X5 and saltLen in X6. -/
def pssOperands (emBits sLen : Nat) : State := machine [(5, emBits), (6, sLen)] [] []

/-- PssencCompletes: the least `emLen` for a salt of 2 bytes (V60), the greatest there is (V62.7), and no salt (V62.5). -/
theorem test_witness_PssencCompletes :
    ((pssOperands 63 2).cfg.hLen + (pssOperands 63 2).readX 6 + 2 ≤ ((pssOperands 63 2).readX 5 + 7) / 8 ∧
      ((pssOperands 63 2).readX 5 + 7) / 8 ≤ (pssOperands 63 2).cfg.bufBytes) ∧
    ((pssOperands 512 58).cfg.hLen + (pssOperands 512 58).readX 6 + 2 ≤ ((pssOperands 512 58).readX 5 + 7) / 8 ∧
      ((pssOperands 512 58).readX 5 + 7) / 8 ≤ (pssOperands 512 58).cfg.bufBytes) ∧
    ((pssOperands 41 0).cfg.hLen + (pssOperands 41 0).readX 6 + 2 ≤ ((pssOperands 41 0).readX 5 + 7) / 8 ∧
      ((pssOperands 41 0).readX 5 + 7) / 8 ≤ (pssOperands 41 0).cfg.bufBytes) := by decide

/-- PssencFails: V62.8 and V62.1. -/
theorem test_witness_PssencFails :
    (pssOperands 513 2).cfg.bufBytes < ((pssOperands 513 2).readX 5 + 7) / 8 ∧
    ((pssOperands 56 2).readX 5 + 7) / 8 ≤ (pssOperands 56 2).cfg.bufBytes ∧
    ((pssOperands 56 2).readX 5 + 7) / 8 < (pssOperands 56 2).cfg.hLen + (pssOperands 56 2).readX 6 + 2 := by decide

/-- A PSS block of the empty message with no salt, in B1. -/
def withPssBlock : State := (machine [(5, 48)] [] []).writeB 1 (pssBlock (Config.hash cfgT) 4 [] 48 [])

/-- PssverCompletes: a block, and the empty string. -/
theorem test_witness_PssverCompletes :
    isPssBlock withPssBlock.cfg (withPssBlock.readB 0) (withPssBlock.readX 5) (withPssBlock.readX 6)
        (withPssBlock.readB 1) ∧
      ¬ isPssBlock (pssOperands 0 0).cfg ((pssOperands 0 0).readB 0) ((pssOperands 0 0).readX 5)
        ((pssOperands 0 0).readX 6) ((pssOperands 0 0).readB 1) := by
  refine ⟨⟨by decide, [], rfl, ?_⟩, ?_⟩
  · rw [withPssBlock, State.readB_writeB]
    rfl
  · rintro ⟨h, -⟩
    exact absurd h (by decide)

/-- BytelenCompletes, its last clause at the largest value of a register. -/
theorem test_witness_BytelenCompletes : idle.readX 0 < 2 ^ (8 * idle.cfg.xBytes) := by decide +kernel

/-- A string in B1. -/
def withString (v : List Byte) : State := machine [] [(1, v)] []

/-- StringToIntegerCompletes: the largest value that fits, and the next. -/
theorem test_witness_StringToIntegerCompletes :
    os2ip ((withString (0x00 :: List.replicate 16 0xFF)).readB 1) <
      2 ^ (8 * (withString (0x00 :: List.replicate 16 0xFF)).cfg.xBytes) ∧
    2 ^ (8 * (withString (0x01 :: List.replicate 16 0x00)).cfg.xBytes) ≤
      os2ip ((withString (0x01 :: List.replicate 16 0x00)).readB 1) := by decide +kernel

/-- A value in X3 and a length in X4. -/
def valueAndLength (v n : Nat) : State := machine [(3, v), (4, n)] [] []

/-- IntegerToStringCompletes: 255 in one byte; 256 in one byte; a length above the buffer. -/
theorem test_witness_IntegerToStringCompletes :
    ((valueAndLength 255 1).readX 4 ≤ (valueAndLength 255 1).cfg.bufBytes ∧
      (valueAndLength 255 1).readX 3 < 256 ^ (valueAndLength 255 1).readX 4) ∧
    256 ^ (valueAndLength 256 1).readX 4 ≤ (valueAndLength 256 1).readX 3 ∧
    (valueAndLength 0 65).cfg.bufBytes < (valueAndLength 0 65).readX 4 := by decide +kernel

/-- ScriptObserves: the largest register value, a string of two bytes, and a WAIT whose turn ends a GCD. -/
theorem test_witness_ScriptObserves :
    idle.busy = false ∧ idle.readX 0 < 2 ^ (8 * idle.cfg.xBytes) ∧ idle.readLen 3 = 2 ∧
      idle.readLen 3 ≤ idle.cfg.bufBytes ∧ pendingGcd.busy = true ∧ decode pendingGcd.pend = .ok (.gcd 2 0 1) ∧
      ∃ u, exec (.gcd 2 0 1) { pendingGcd with port := .wait :: pendingGcd.port } = .next u ∧ u.busy = false :=
  ⟨rfl, by decide +kernel, by decide, by decide, rfl, by decide, _, rfl, by decide⟩

end Sys2Proof.Tests
end

section
/-! PROOFS. The notation of 00_scope.md: lengths of numbers (R12), numbers and byte strings (R11). -/

namespace Sys2Proof.Machine

/-! ### Lengths of numbers -/

/-- The lower bound of R12: `bitLength_le_iff` read from the other side. -/
theorem lt_bitLength_iff (n L : Nat) : L < bitLength n ↔ 2 ^ L ≤ n := by
  rw [← Nat.not_le, bitLength_le_iff, Nat.not_lt]

theorem bitLength_pos_iff (n : Nat) : 0 < bitLength n ↔ 0 < n := by
  rw [lt_bitLength_iff, Nat.pow_zero, Nat.succ_le_iff]

/-- Each of the two bounds of R12 is an order relation between `L` and `bitLength n`; together they leave one `L`. -/
theorem bitLength_bounds_iff {n : Nat} (hn : 0 < n) (L : Nat) :
    (0 < L ∧ 2 ^ (L - 1) ≤ n ∧ n < 2 ^ L) ↔ L = bitLength n := by
  have hpos : 0 < bitLength n := (bitLength_pos_iff n).2 hn
  rw [← lt_bitLength_iff, ← bitLength_le_iff]
  omega

theorem byteLen_eq_div (n : Nat) : byteLen n = (bitLength n + 7) / 8 := rfl

/-- Settles O5: each bound of R12 is an order relation with `bitLength`; the rest is evaluation. -/
theorem lengthsOfNumbers : Obligations.LengthsOfNumbers := by
  unfold Obligations.LengthsOfNumbers
  exact ⟨rfl, fun _ hn L => bitLength_bounds_iff hn L, byteLen_eq_div, rfl, by decide, by decide⟩

/-! ### Numbers and byte strings -/

/-- `I2OSP(v, n)` has length `n` and value `v`, and a string is determined by its length and its value. -/
theorem length_and_os2ip_iff {v n : Nat} (h : v < 256 ^ n) (t : List Byte) :
    (t.length = n ∧ os2ip t = v) ↔ t = i2osp v n := by
  constructor
  · rintro ⟨rfl, rfl⟩
    exact (i2osp_os2ip t).symm
  · rintro rfl
    exact ⟨i2osp_length v n, os2ip_i2osp h⟩

/-- Settles O6: the two equations of OS2IP, and I2OSP as its inverse on strings of length `n`. -/
theorem integersAndStrings : Obligations.IntegersAndStrings := by
  unfold Obligations.IntegersAndStrings
  exact ⟨os2ip_nil, os2ip_append_singleton, fun _ _ h t => length_and_os2ip_iff h t⟩

end Sys2Proof.Machine
end

section
/-! PROOFS. The state after reset (10_state.md R33) and the control register CTRL (R29). -/

namespace Sys2Proof.Machine

/-! ### Operands of a state whose items have their reset values -/

theorem State.readX_of_x_zero {s : State} (h : s.x = Vector.replicate 8 0) (i : XReg) : s.readX i = 0 := by
  rw [State.readX, h]
  exact Vector.getElem_replicate i.isLt

theorem State.readLen_of_blen_zero {s : State} (h : s.blen = Vector.replicate 4 0) (j : BReg) : s.readLen j = 0 := by
  rw [State.readLen, h]
  exact Vector.getElem_replicate j.isLt

theorem State.readData_of_mem_nil {s : State} (h : s.mem = []) (j : BReg) (o : Nat) : s.readData j o = 0 := by
  rw [State.readData, h, Memory.read]

/-- Settles O9: the operands read the zero vectors and the empty memory of the reset state; the other items are its fields. -/
theorem resetLeavesZero : Obligations.ResetLeavesZero := by
  unfold Obligations.ResetLeavesZero
  exact ⟨State.readX_of_x_zero rfl, State.readData_of_mem_nil rfl, State.readLen_of_blen_zero rfl, rfl, rfl, rfl, rfl⟩

/-! ### Host accesses the port admits -/

/-- A read the port admits returns the port's value and has no other effect (R50). -/
theorem State.hostRead_of_readPort {s : State} {off n r : Nat} (hoff : off < windowSize) (hn : n = 1 ∨ n = 2 ∨ n = 4)
    (h : s.readPort off n = some r) : s.hostRead (s.cfg.base + off) n = { s with rdata := BitVec.ofNat 32 r } := by
  simp only [State.hostRead, accessOffset_base s.cfg hoff hn, h]

/-- A write the port admits has the port's effect (R50). -/
theorem State.hostWrite_of_writePort {s t : State} {off n : Nat} {v : Word} (hoff : off < windowSize)
    (hn : n = 1 ∨ n = 2 ∨ n = 4) (h : s.writePort off n v = some t) : s.hostWrite (s.cfg.base + off) n v = t := by
  simp only [State.hostWrite, accessOffset_base s.cfg hoff hn, h]

/-! ### The control register CTRL -/

theorem State.readPort_ctrl (s : State) : s.readPort 0x000008 4 = some 0 := rfl

theorem State.writePort_ctrl (s : State) (v : Word) : s.writePort 0x000008 4 v = some (s.acknowledge v) := rfl

/-- Settles O28: the port admits both accesses in every state, and the write is the acknowledge. -/
theorem controlWrite : Obligations.ControlWrite := by
  unfold Obligations.ControlWrite
  intro s v
  have hoff : 0x000008 < windowSize := by decide
  have hn : 4 = 1 ∨ 4 = 2 ∨ 4 = 4 := .inr (.inr rfl)
  constructor
  · exact State.hostRead_of_readPort hoff hn s.readPort_ctrl
  · exact State.hostWrite_of_writePort hoff hn (s.writePort_ctrl v)

end Sys2Proof.Machine
end

section
/-! PROOFS. The data windows of the host window (20_memory.md R52, R54, R55). -/

namespace Sys2Proof.Machine

/-! ### The map at the data windows -/

theorem bufferBase_eq (j : BReg) : bufferBase j = 0x100000 + 0x10000 * j.val := rfl

/-- A slot of 0x10000 bytes for each register, from 0x010000 up (R52). -/
theorem regionAt_xWindow (i : XReg) {o : Nat} (ho : o < 0x10000) :
    regionAt (0x10000 * (i.val + 1) + o) = .xWindow i o := by
  have hi := i.isLt
  have hreg : Fin.ofNat 8 ((0x10000 * (i.val + 1) + o) / 0x10000 - 1) = i := by
    apply Fin.ext
    rw [Fin.val_ofNat]
    omega
  have hbyte : (0x10000 * (i.val + 1) + o) % 0x10000 = o := by omega
  rw [regionAt, if_neg (by omega), if_neg (by omega), if_neg (by omega), if_neg (by omega), if_pos (by omega), hreg,
    hbyte]

/-- A slot of 0x10000 bytes for each buffer, from 0x100000 up (R52). -/
theorem regionAt_bWindow (j : BReg) {o : Nat} (ho : o < 0x10000) : regionAt (bufferBase j + o) = .bWindow j o := by
  have hj := j.isLt
  have hbase := bufferBase_eq j
  have hbuf : Fin.ofNat 4 ((bufferBase j + o) / 0x10000 - 16) = j := by
    apply Fin.ext
    rw [Fin.val_ofNat]
    omega
  have hbyte : (bufferBase j + o) % 0x10000 = o := by omega
  rw [regionAt, if_neg (by omega), if_neg (by omega), if_neg (by omega), if_neg (by omega), if_neg (by omega),
    if_pos (by omega), hbuf, hbyte]

theorem xWindow_lt_windowSize (i : XReg) {o : Nat} (ho : o < 0x10000) : 0x10000 * (i.val + 1) + o < windowSize := by
  have hi := i.isLt
  rw [windowSize]
  omega

theorem bWindow_lt_windowSize (j : BReg) {o : Nat} (ho : o < 0x10000) : bufferBase j + o < windowSize := by
  have hj := j.isLt
  rw [windowSize, bufferBase_eq]
  omega

/-! ### Aligned accesses inside the windows -/

/-- Every slot starts at a multiple of every width: an access is aligned in the window exactly when it is in its slot (R53). -/
theorem slot_add_mod (k o : Nat) {n : Nat} (hn : n = 1 ∨ n = 2 ∨ n = 4) : (0x10000 * k + o) % n = o % n := by
  rcases hn with rfl | rfl | rfl <;> omega

theorem bufferBase_add_mod (j : BReg) (o : Nat) {n : Nat} (hn : n = 1 ∨ n = 2 ∨ n = 4) :
    (bufferBase j + o) % n = o % n := by
  have hslot : bufferBase j = 0x10000 * (16 + j.val) := by rw [bufferBase_eq]; omega
  rw [hslot, slot_add_mod _ o hn]

/-- The first byte of an access inside a register's window is a byte of its slot (R7, R53). -/
theorem offset_lt_of_le_xBytes (P : Config.Params) {o n : Nat} (hn : n = 1 ∨ n = 2 ∨ n = 4) (h : o + n ≤ P.xBytes) :
    o < 0x10000 := by
  obtain ⟨⟨-, hx⟩, -⟩ := P.valid
  omega

/-- The first byte of an access inside a data array is a byte of its slot (R7, R53). -/
theorem offset_lt_of_le_bufBytes (P : Config.Params) {o n : Nat} (hn : n = 1 ∨ n = 2 ∨ n = 4)
    (h : o + n ≤ P.bufBytes) : o < 0x10000 := by
  obtain ⟨-, ⟨-, hb⟩, -⟩ := P.valid
  omega

section
variable {s : State} {o n : Nat} (hb : s.busy = false) (hn : n = 1 ∨ n = 2 ∨ n = 4) (ha : o % n = 0)
include hb hn ha

theorem State.hostRead_xWindow (i : XReg) (hs : o + n ≤ s.cfg.xBytes) :
    s.hostRead (s.cfg.base + (0x10000 * (i.val + 1) + o)) n =
      { s with rdata := BitVec.ofNat 32 (os2ip (slice (s.windowBytes i) o (o + n))) } := by
  have ho := offset_lt_of_le_xBytes s.cfg hn hs
  refine State.hostRead_of_readPort (xWindow_lt_windowSize i ho) hn ?_
  simp only [State.readPort, regionAt_xWindow i ho]
  exact if_pos ⟨hb, (slot_add_mod _ o hn).trans ha, hs⟩

theorem State.hostWrite_xWindow (i : XReg) (hs : o + n ≤ s.cfg.xBytes) (v : Word) :
    s.hostWrite (s.cfg.base + (0x10000 * (i.val + 1) + o)) n v =
      s.writeX i (os2ip (splice (s.windowBytes i) o (i2osp v.toNat n))) := by
  have ho := offset_lt_of_le_xBytes s.cfg hn hs
  refine State.hostWrite_of_writePort (xWindow_lt_windowSize i ho) hn ?_
  simp only [State.writePort, regionAt_xWindow i ho]
  exact if_pos ⟨hb, (slot_add_mod _ o hn).trans ha, hs⟩

theorem State.hostRead_bWindow (j : BReg) (hs : o + n ≤ s.cfg.bufBytes) :
    s.hostRead (s.cfg.base + (bufferBase j + o)) n =
      { s with rdata := BitVec.ofNat 32 (os2ip (Memory.readBytes s.mem (bufferBase j + o) n)) } := by
  have ho := offset_lt_of_le_bufBytes s.cfg hn hs
  refine State.hostRead_of_readPort (bWindow_lt_windowSize j ho) hn ?_
  simp only [State.readPort, regionAt_bWindow j ho]
  exact if_pos ⟨hb, (bufferBase_add_mod j o hn).trans ha, hs⟩

theorem State.hostWrite_bWindow (j : BReg) (hs : o + n ≤ s.cfg.bufBytes) (v : Word) :
    s.hostWrite (s.cfg.base + (bufferBase j + o)) n v =
      { s with mem := Memory.writeBytes s.mem (bufferBase j + o) (i2osp v.toNat n) } := by
  have ho := offset_lt_of_le_bufBytes s.cfg hn hs
  refine State.hostWrite_of_writePort (bWindow_lt_windowSize j ho) hn ?_
  simp only [State.writePort, regionAt_bWindow j ho]
  exact if_pos ⟨hb, (bufferBase_add_mod j o hn).trans ha, hs⟩

end

/-! ### What a window shows after a write -/

/-- The register that shows a given string in its window is the string's number, and it fits (R11, R22). -/
theorem i2osp_os2ip_of_length {w : List Byte} {k : Nat} (h : w.length = k) :
    i2osp (os2ip w) k = w ∧ os2ip w < 2 ^ (8 * k) := by
  subst h
  have hlt := os2ip_lt w
  exact ⟨i2osp_os2ip w, by rwa [Nat.pow_mul]⟩

/-- Settles O32: the port admits both accesses, and the number written is that of the spliced string, which has the window's
length. -/
theorem registerWindow : Obligations.RegisterWindow := by
  unfold Obligations.RegisterWindow
  intro s i o n v hb hn ha hs
  have hfit : o + (i2osp v.toNat n).length ≤ (s.windowBytes i).length := by
    rwa [i2osp_length, State.windowBytes_length]
  rw [Nat.add_assoc s.cfg.base]
  constructor
  · rw [State.hostRead_xWindow hb hn ha i hs, slice, State.windowBytes, Nat.add_sub_cancel_left]
  · obtain ⟨hshown, hlt⟩ := i2osp_os2ip_of_length ((splice_length hfit).trans (s.windowBytes_length i))
    refine ⟨_, State.hostWrite_xWindow hb hn ha i hs v, hlt, fun b _ => ?_⟩
    rw [hshown, getD_splice hfit, i2osp_length, State.windowBytes]

/-- Settles O33: the port admits both accesses; the bytes they touch are those of `Memory.readBytes` and of
`Memory.writeBytes`. -/
theorem bufferWindow : Obligations.BufferWindow := by
  unfold Obligations.BufferWindow
  intro s j o n v hb hn ha hs
  rw [Nat.add_assoc s.cfg.base]
  constructor
  · rw [State.hostRead_bWindow hb hn ha j hs]
    simp only [Memory.readBytes, State.readData, Nat.add_assoc]
  · refine ⟨_, State.hostWrite_bWindow hb hn ha j hs v, fun a => ?_⟩
    rw [Memory.read_writeBytes, i2osp_length]

end Sys2Proof.Machine
end

section
/-! PROOFS. The math kernel (40_math_kernel.md): GCD (R100), MODINV (R103), MODEXP (R106), BYTELEN (R109). -/

namespace Sys2Proof.Machine

open Sys2Proof.Claims

/-! ### GCD -/

/-- An iteration of R100 keeps the greatest common divisor and lowers `b`. -/
theorem gcdLoop_eq_gcd {fuel a b : Nat} (h : b < fuel) : gcdLoop fuel a b = Nat.gcd a b := by
  induction fuel generalizing a b with
  | zero => exact absurd h (Nat.not_lt_zero b)
  | succ fuel ih =>
    rw [gcdLoop]
    split
    · next hb =>
      have hlt := Nat.mod_lt a (Nat.pos_of_ne_zero hb)
      rw [ih (by omega), Nat.gcd_comm b, ← Nat.gcd_rec, Nat.gcd_comm]
    · next hb => rw [not_not.1 hb, Nat.gcd_zero_right]

theorem euclid_eq_gcd (a b : Nat) : euclid a b = Nat.gcd a b := gcdLoop_eq_gcd (Nat.lt_succ_self b)

theorem exec_gcd (rd rs1 rs2 : XReg) (s : State) :
    exec (.gcd rd rs1 rs2) s = .next (doneX s rd (Nat.gcd (s.readX rs1) (s.readX rs2)) 0) := by
  rw [exec, execGcd, euclid_eq_gcd, completeX_ok, doneX]

/-- Settles O38: the loop of R100 computes `Nat.gcd`. -/
theorem gcdCompletes : Obligations.GcdCompletes := by
  unfold Obligations.GcdCompletes
  intro rd rs1 rs2 s
  refine ⟨_, exec_gcd rd rs1 rs2 s, Nat.gcd_dvd_left _ _, Nat.gcd_dvd_right _ _, fun d h1 h2 => ?_, Nat.gcd_eq_zero_iff⟩
  have hd := Nat.dvd_gcd h1 h2
  exact ⟨hd, fun hg => Nat.le_of_dvd (Nat.pos_of_ne_zero hg) hd⟩

/-! ### MODINV -/

theorem inverseLoop_zero_right (fuel r0 : Nat) (t0 t1 : Int) : inverseLoop fuel r0 0 t0 t1 = (r0, t0) := by
  cases fuel with
  | zero => rfl
  | succ fuel => rw [inverseLoop, if_neg (not_not.2 rfl)]

/-- An iteration of R103: one Euclidean division of `r0` by `r1`. -/
theorem inverseLoop_succ (fuel r0 : Nat) {r1 : Nat} (h : r1 ≠ 0) (t0 t1 : Int) :
    inverseLoop (fuel + 1) r0 r1 t0 t1 = inverseLoop fuel r1 (r0 % r1) t1 (t0 - (r0 / r1 : Nat) * t1) := by
  rw [inverseLoop, if_pos h, Nat.mod_def, Nat.mul_comm]

/-- On the remainders the loop of R103 is that of R100. -/
theorem inverseLoop_fst (fuel r0 r1 : Nat) (t0 t1 : Int) :
    (inverseLoop fuel r0 r1 t0 t1).1 = gcdLoop fuel r0 r1 := by
  induction fuel generalizing r0 r1 t0 t1 with
  | zero => rfl
  | succ fuel ih =>
    rw [gcdLoop]
    split
    · next h => rw [inverseLoop_succ fuel r0 h, ih]
    · next h => rw [not_not.1 h, inverseLoop_zero_right]

/-- The invariant of R103: modulo `m` each remainder is its coefficient times `a`. -/
theorem inverseLoop_modEq {m a : Int} {r0 r1 : Nat} {t0 t1 : Int} (fuel : Nat) (h0 : a * t0 ≡ r0 [ZMOD m])
    (h1 : a * t1 ≡ r1 [ZMOD m]) :
    a * (inverseLoop fuel r0 r1 t0 t1).2 ≡ (inverseLoop fuel r0 r1 t0 t1).1 [ZMOD m] := by
  induction fuel generalizing r0 r1 t0 t1 with
  | zero => exact h0
  | succ fuel ih =>
    by_cases h : r1 = 0
    · rw [h, inverseLoop_zero_right]
      exact h0
    · rw [inverseLoop_succ fuel r0 h]
      refine ih h1 ?_
      have hrem : ((r0 % r1 : Nat) : Int) = r0 - (r0 / r1 : Nat) * r1 := by
        rw [Int.natCast_mod, Int.natCast_div, Int.emod_def, Int.mul_comm]
      have hcoef : a * (t0 - (r0 / r1 : Nat) * t1) = a * t0 - (r0 / r1 : Nat) * (a * t1) := by ring
      rw [hrem, hcoef]
      exact h0.sub (h1.mul_left _)

/-- From R103's first values the loop reaches the greatest common divisor and a coefficient for it. -/
theorem inverseLoop_start (a : Nat) {m : Nat} (hm : 0 < m) :
    (inverseLoop (m + 1) m (a % m) 0 1).1 = Nat.gcd a m ∧
      a * (inverseLoop (m + 1) m (a % m) 0 1).2 ≡ Nat.gcd a m [ZMOD m] := by
  have hgcd : (inverseLoop (m + 1) m (a % m) 0 1).1 = Nat.gcd a m := by
    have hlt := Nat.mod_lt a hm
    rw [inverseLoop_fst, gcdLoop_eq_gcd (by omega), Nat.gcd_comm, ← Nat.gcd_rec, Nat.gcd_comm]
  have h0 : (a : Int) * 0 ≡ m [ZMOD m] := by
    rw [Int.mul_zero]
    exact (Int.modEq_zero_iff_dvd.2 dvd_rfl).symm
  have h1 : (a : Int) * 1 ≡ (a % m : Nat) [ZMOD m] := by
    rw [Int.mul_one, Int.natCast_mod]
    exact (Int.mod_modEq _ _).symm
  have hcoef := inverseLoop_modEq (m + 1) h0 h1
  rw [hgcd] at hcoef
  exact ⟨hgcd, hcoef⟩

theorem modInverse_zero (a : Nat) : modInverse a 0 = .error .zeroModulus := rfl

theorem modInverse_of_gcd_ne_one {a m : Nat} (hm : 0 < m) (h : Nat.gcd a m ≠ 1) :
    modInverse a m = .error .noInverse := by
  obtain ⟨hgcd, -⟩ := inverseLoop_start a hm
  rw [modInverse, if_neg hm.ne']
  exact if_pos (hgcd ▸ h)

/-- The answer is the coefficient reduced to `[0, m)`. -/
theorem modInverse_of_gcd_eq_one {a m : Nat} (hm : 0 < m) (h : Nat.gcd a m = 1) :
    ∃ r, modInverse a m = .ok r ∧ r < m ∧ a * r ≡ 1 [MOD m] := by
  obtain ⟨hgcd, hcoef⟩ := inverseLoop_start a hm
  rw [h] at hgcd hcoef
  refine ⟨((inverseLoop (m + 1) m (a % m) 0 1).2 % (m : Int)).toNat, ?_, ?_, ?_⟩
  · rw [modInverse, if_neg hm.ne']
    exact if_neg (not_not.2 hgcd)
  · have hlt := Int.emod_lt_of_pos (inverseLoop (m + 1) m (a % m) 0 1).2 (Int.natCast_pos.2 hm)
    omega
  · have hnonneg := Int.emod_nonneg (inverseLoop (m + 1) m (a % m) 0 1).2 (Int.natCast_ne_zero.2 hm.ne')
    rw [← Int.natCast_modEq_iff, Int.natCast_mul, Int.toNat_of_nonneg hnonneg]
    exact ((Int.mod_modEq _ _).mul_left _).trans hcoef

/-- A number coprime to `m` can be cancelled modulo `m`, so it has at most one inverse in `[0, m)`. -/
theorem inverse_unique {a m r : Nat} (hcop : Nat.gcd a m = 1) (hr : r < m) (h : a * r ≡ 1 [MOD m]) (q : Nat) :
    (q < m ∧ a * q % m = 1 % m) ↔ q = r := by
  constructor
  · rintro ⟨hq, hinv⟩
    have hqr : a * q ≡ a * r [MOD m] := Nat.ModEq.trans hinv h.symm
    exact (hqr.cancel_left_of_coprime (Nat.gcd_comm a m ▸ hcop)).eq_of_lt_of_lt hq hr
  · rintro rfl
    exact ⟨hr, h⟩

theorem exec_modinv_error {a m : XReg} {s : State} {e : Failure}
    (h : modInverse (s.readX a) (s.readX m) = .error e) (rd : XReg) :
    exec (.modinv rd a m) s = .next (s.raise e) := by
  rw [exec, execModinv, h, completeX_error]

theorem exec_modinv_ok {a m : XReg} {s : State} {r : Nat} (h : modInverse (s.readX a) (s.readX m) = .ok r)
    (rd : XReg) : exec (.modinv rd a m) s = .next (doneX s rd r 0) := by
  rw [exec, execModinv, h, completeX_ok, doneX]

/-- Settles O39: the Euclidean loop gives the gcd, which decides the failure, and a coefficient, which is the inverse. -/
theorem modinvCompletes : Obligations.ModinvCompletes := by
  unfold Obligations.ModinvCompletes
  refine fun rd rs1 rs2 s => ⟨fun hm => ?_, fun hm hgcd => ?_, fun hm hgcd => ?_⟩
  · exact exec_modinv_error (hm ▸ modInverse_zero _) rd
  · exact exec_modinv_error (modInverse_of_gcd_ne_one hm hgcd) rd
  · obtain ⟨r, hok, hr, hinv⟩ := modInverse_of_gcd_eq_one hm hgcd
    exact ⟨r, exec_modinv_ok hok rd, inverse_unique hgcd hr hinv⟩

/-! ### MODEXP -/

/-- One iteration of R106: the lowest bit of the exponent selects the factor `b`, the others are the power of the square. -/
theorem pow_eq_lowest_bit_mul (b e : Nat) : b ^ e = (if e % 2 = 1 then b else 1) * (b * b) ^ (e / 2) := by
  have he := Nat.mod_add_div e 2
  rw [← Nat.pow_two, ← Nat.pow_mul]
  split
  · next h => rw [← Nat.pow_succ', ← he, h]; congr 1; omega
  · next h => rw [Nat.one_mul]; congr 1; omega

/-- The running product and the running square of R106 may be reduced modulo `m` in every iteration. -/
theorem square_and_multiply_modEq (r b e m : Nat) :
    (if e % 2 = 1 then r * b % m else r) * (b * b % m) ^ (e / 2) ≡ r * b ^ e [MOD m] := by
  have hproduct : (if e % 2 = 1 then r * b % m else r) ≡ r * (if e % 2 = 1 then b else 1) [MOD m] := by
    split
    · exact Nat.mod_modEq _ _
    · rw [Nat.mul_one]
  have hsquare : (b * b % m) ^ (e / 2) ≡ (b * b) ^ (e / 2) [MOD m] := (Nat.mod_modEq _ _).pow _
  rw [pow_eq_lowest_bit_mul b e, ← Nat.mul_assoc]
  exact hproduct.mul hsquare

/-- The invariant of R106 is `r * b^e` modulo `m`; every iteration takes one bit from the exponent. -/
theorem powerLoop_eq {fuel r b e m : Nat} (hr : r < m) (he : e < 2 ^ fuel) :
    powerLoop fuel r b e m = r * b ^ e % m := by
  induction fuel generalizing r b e with
  | zero =>
    have he0 : e = 0 := by omega
    rw [powerLoop, he0, Nat.pow_zero, Nat.mul_one, Nat.mod_eq_of_lt hr]
  | succ fuel ih =>
    rw [powerLoop]
    split
    · have hr' : (if e % 2 = 1 then r * b % m else r) < m := by
        split
        · exact Nat.mod_lt _ (Nat.zero_lt_of_lt hr)
        · exact hr
      rw [ih hr' (by omega)]
      exact square_and_multiply_modEq r b e m
    · next h =>
      have he0 : e = 0 := by omega
      rw [he0, Nat.pow_zero, Nat.mul_one, Nat.mod_eq_of_lt hr]

theorem modPower_eq (b e : Nat) {m : Nat} (hm : 0 < m) : modPower b e m = b ^ e % m := by
  have he : e < 2 ^ bitLength e := (bitLength_le_iff e _).1 (Nat.le_refl _)
  have hstart : 1 % m * (b % m) ^ e ≡ 1 * b ^ e [MOD m] := (Nat.mod_modEq 1 m).mul ((Nat.mod_modEq b m).pow e)
  rw [modPower, powerLoop_eq (Nat.mod_lt 1 hm) he, hstart, Nat.one_mul]

theorem modExp_of_pos (b e : Nat) {m : Nat} (hm : 0 < m) : modExp b e m = .ok (b ^ e % m) := by
  rw [modExp, if_neg hm.ne', modPower_eq b e hm]

theorem modExp_zero (b e : Nat) : modExp b e 0 = .error .zeroModulus := rfl

/-- Settles O40: square and multiply computes the power's remainder; the modulus 0 is the one failure. -/
theorem modexpCompletes : Obligations.ModexpCompletes := by
  unfold Obligations.ModexpCompletes
  refine fun rd rs1 rs2 rs3 s => ⟨fun hm => ?_, fun hm => ?_⟩
  · rw [exec, execModexp, modExp_of_pos _ _ hm, completeX_ok, doneX]
  · rw [exec, execModexp, hm, modExp_zero, completeX_error]

/-! ### BYTELEN -/

theorem exec_bytelen (rd rs1 : XReg) (s : State) :
    exec (.bytelen rd rs1) s = .next (doneX s rd (byteLen (s.readX rs1)) 0) := by
  rw [exec, execBytelen, completeX_ok, doneX]

/-- Settles O41: the ceiling is the definition of `byteLen`, and the bounds are order relations with it. -/
theorem bytelenCompletes : Obligations.BytelenCompletes := by
  unfold Obligations.BytelenCompletes
  intro rd rs1 s
  exact ⟨_, exec_bytelen rd rs1 s, byteLen_eq_div _, fun j => (byteLen_le_iff _ j).symm, byteLen_le_of_lt⟩

end Sys2Proof.Machine
end

section
/-! PROOFS. The conversions between the two register files (43_conversion.md): OS2IP (R180), I2OSP (R183). -/

namespace Sys2Proof.Machine

open Sys2Proof.Claims

/-! ### OS2IP -/

/-- The model's test on the byte length is R180's test on the value, whatever the length of the string. -/
theorem lt_byteLen_iff (n k : Nat) : k < byteLen n ↔ 2 ^ (8 * k) ≤ n := by
  rw [← Nat.not_le, byteLen_le_iff, Nat.not_lt, Nat.pow_mul]

theorem exec_os2ip_ok {rs1 : BReg} {s : State} (h : os2ip (s.readB rs1) < 2 ^ (8 * s.cfg.xBytes)) (rd : XReg) :
    exec (.os2ip rd rs1) s = .next (doneX s rd (os2ip (s.readB rs1)) 0) := by
  rw [exec, execOs2ip, if_neg (Nat.not_lt.2 (byteLen_le_of_lt h)), completeX_ok, doneX]

theorem exec_os2ip_error {rs1 : BReg} {s : State} (h : 2 ^ (8 * s.cfg.xBytes) ≤ os2ip (s.readB rs1)) (rd : XReg) :
    exec (.os2ip rd rs1) s = .next (s.raise .rangeError) := by
  rw [exec, execOs2ip, if_pos ((lt_byteLen_iff _ _).2 h), completeX_error]

/-- Settles O58: the bound on the value decides the test on its byte length. -/
theorem stringToIntegerCompletes : Obligations.StringToIntegerCompletes := by
  unfold Obligations.StringToIntegerCompletes
  exact fun rd _ _ => ⟨fun h => exec_os2ip_ok h rd, fun h => exec_os2ip_error h rd⟩

/-! ### I2OSP -/

theorem exec_i2osp_ok {rs1 rs2 : XReg} {s : State} (hn : s.readX rs2 ≤ s.cfg.bufBytes)
    (hv : s.readX rs1 < 256 ^ s.readX rs2) (rd : BReg) :
    exec (.i2osp rd rs1 rs2) s = .next (doneB s rd (i2osp (s.readX rs1) (s.readX rs2)) 0) := by
  rw [exec, execI2osp, if_neg (Nat.not_lt.2 hn), if_neg (Nat.not_le.2 hv), completeB_ok, doneB]

/-- Both tests of R183 have one code. -/
theorem exec_i2osp_error {rs1 rs2 : XReg} {s : State}
    (h : s.cfg.bufBytes < s.readX rs2 ∨ 256 ^ s.readX rs2 ≤ s.readX rs1) (rd : BReg) :
    exec (.i2osp rd rs1 rs2) s = .next (s.raise .rangeError) := by
  rw [exec, execI2osp]
  split
  · exact completeB_error rd _ 0 s
  · next hn => rw [if_pos (h.resolve_left hn), completeB_error]

/-- Settles O59: the string is `i2osp v n`, whose length is `n` and, as `v` fits in `n` bytes, whose value is `v`. -/
theorem integerToStringCompletes : Obligations.IntegerToStringCompletes := by
  unfold Obligations.IntegerToStringCompletes
  refine fun rd _ _ _ => ⟨fun hn hv => ?_, fun h => exec_i2osp_error h rd⟩
  exact ⟨_, exec_i2osp_ok hn hv rd, i2osp_length _ _, os2ip_i2osp hv⟩

end Sys2Proof.Machine
end

section
/-! PROOFS. The issue of a command (44_command_control.md R190, R191): the control register CMD. -/

namespace Sys2Proof.Machine

/-- A host write at the head of the port is the next step (20_memory.md R61). -/
theorem step_of_write {s : State} {addr n : Nat} {v : Word} {rest : List Event}
    (hp : s.port = .write addr n v :: rest) : step s = .next { s.hostWrite addr n v with port := rest } := by
  rw [step, hp, ← State.hostWrite_port]

/-- A write the port refuses sets HERR and has no other effect (20_memory.md R58). -/
theorem State.hostWrite_of_writePort_none {s : State} {off n : Nat} {v : Word} (hoff : off < windowSize)
    (hn : n = 1 ∨ n = 2 ∨ n = 4) (h : s.writePort off n v = none) :
    s.hostWrite (s.cfg.base + off) n v = { s with herr := true } := by
  simp only [State.hostWrite, accessOffset_base s.cfg hoff hn, h]

/-! ### The control register CMD -/

theorem State.writePort_cmd (s : State) (w : Word) :
    s.writePort 0x000000 4 w = if s.busy = false ∧ s.err = none then some (s.issue w) else none := by
  have hcmd : regionAt 0x000000 = .cmd := rfl
  simp only [State.writePort, hcmd, true_and]

/-- A write to CMD is admitted only with BUSY = 0 and ERR = 0 (R190). -/
theorem State.hostWrite_cmd_refused {s : State} (h : s.busy = true ∨ s.err ≠ none) (w : Word) :
    s.hostWrite s.cfg.base 4 w = { s with herr := true } := by
  refine State.hostWrite_of_writePort_none (off := 0x000000) (by decide) (.inr (.inr rfl)) ?_
  rw [State.writePort_cmd, if_neg]
  rintro ⟨hb, he⟩
  exact h.elim (by simp [hb]) (absurd he)

/-- A write to CMD that the port admits issues the word (R190). -/
theorem State.hostWrite_cmd_issue {s : State} (hb : s.busy = false) (he : s.err = none) (w : Word) :
    s.hostWrite s.cfg.base 4 w = s.issue w := by
  refine State.hostWrite_of_writePort (off := 0x000000) (by decide) (.inr (.inr rfl)) ?_
  rw [State.writePort_cmd, if_pos ⟨hb, he⟩]

/-- Settles O17: the step is the write to CMD; the port refuses it, or issues a word that is legal or illegal. The failure of an
illegal word clears BUSY, which an admitted write finds clear. -/
theorem issueRule : Obligations.IssueRule := by
  unfold Obligations.IssueRule
  intro s w rest hp
  rw [step_of_write hp]
  refine ⟨fun h => ?_, fun hb he i hd => ?_, fun hb he c hd => ?_⟩
  · rw [State.hostWrite_cmd_refused h]
  · rw [State.hostWrite_cmd_issue hb he, State.issue_legal hd]
  · rw [State.hostWrite_cmd_issue hb he, State.issue_illegal hd, ← hb]

end Sys2Proof.Machine
end

section
/-! PROOFS. The decoder and the encoder (30_encoding.md R81, R84 to R87). -/

namespace Sys2Proof

/-! ### The fields of a word -/

/-- Four bits from bit `lo` up, as the number the decoder reads there. -/
theorem extractLsb'_four_toNat (w : Word) (lo : Nat) : (w.extractLsb' lo 4).toNat = field w lo := by
  rw [BitVec.extractLsb'_toNat, Nat.shiftRight_eq_div_pow, field]

theorem ofWord_opcode_toNat (w : Word) : (FormatC.ofWord w).opcode.toNat = w.toNat % 256 := by
  simp [FormatC.ofWord]

/-- A word is the sum of its fields at the places of R80. -/
theorem toNat_eq_fields (w : Word) :
    w.toNat = w.toNat % 256 + 2 ^ 8 * field w 8 + 2 ^ 12 * field w 12 + 2 ^ 16 * field w 16 + 2 ^ 20 * field w 20 +
      2 ^ 24 * field w 24 + 2 ^ 28 * field w 28 := by
  have hw := w.isLt
  simp only [field]
  omega

/-- R80 leaves no bit of a word outside the seven fields. -/
theorem ofWord_injective : Function.Injective FormatC.ofWord := by
  intro v w h
  simp only [FormatC.ofWord, FormatC.mk.injEq] at h
  obtain ⟨h0, h1, h2, h3, h4, h5, h6⟩ := h
  have hop : v.toNat % 256 = w.toNat % 256 := by simpa using congrArg BitVec.toNat h0
  apply BitVec.eq_of_toNat_eq
  rw [toNat_eq_fields v, toNat_eq_fields w, hop]
  simp only [← extractLsb'_four_toNat, h1, h2, h3, h4, h5, h6]

/-! ### The masks -/

/-- Masking a word masks each of its fields. -/
theorem ofWord_and (v w : Word) :
    FormatC.ofWord (v &&& w) =
      { opcode := (FormatC.ofWord v).opcode &&& (FormatC.ofWord w).opcode
        rd := (FormatC.ofWord v).rd &&& (FormatC.ofWord w).rd
        rs1 := (FormatC.ofWord v).rs1 &&& (FormatC.ofWord w).rs1
        rs2 := (FormatC.ofWord v).rs2 &&& (FormatC.ofWord w).rs2
        rs3 := (FormatC.ofWord v).rs3 &&& (FormatC.ofWord w).rs3
        rs4 := (FormatC.ofWord v).rs4 &&& (FormatC.ofWord w).rs4
        zero := (FormatC.ofWord v).zero &&& (FormatC.ofWord w).zero } := by
  simp only [FormatC.ofWord, BitVec.extractLsb'_and]

/-- The mask of a register field of each class (R84): the bits that its legal values leave 0. -/
def FieldClass.mask : FieldClass → BitVec 4
  | .x => 0x8
  | .b => 0xC
  | .unused => 0xF

/-- The mask of a class lets exactly the values through that R81 makes legal for it. -/
theorem FieldClass.and_mask_eq_zero_iff (c : FieldClass) (f : BitVec 4) : f &&& c.mask = 0 ↔ c.admits f = true := by
  cases c <;> revert f <;> decide

/-- The number the decoder takes from the register field at bit `lo`, by its class. -/
def FieldClass.operand (w : Word) (lo : Nat) : FieldClass → Nat
  | .x => xField w lo
  | .b => bField w lo
  | .unused => 0

/-- A legal field is read without loss. -/
theorem FieldClass.operand_eq_field {c : FieldClass} {w : Word} {lo : Nat}
    (h : c.admits (w.extractLsb' lo 4) = true) : c.operand w lo = field w lo := by
  cases c with
  | x =>
    have hlt : field w lo < 8 := by
      simpa only [FieldClass.admits, extractLsb'_four_toNat, decide_eq_true_eq] using h
    exact Nat.mod_eq_of_lt hlt
  | b =>
    have hlt : field w lo < 4 := by
      simpa only [FieldClass.admits, extractLsb'_four_toNat, decide_eq_true_eq] using h
    exact Nat.mod_eq_of_lt hlt
  | unused =>
    have hzero : w.extractLsb' lo 4 = 0 := by simpa [FieldClass.admits] using h
    rw [← extractLsb'_four_toNat, hzero]
    rfl

/-- What a row of R84 is made of: its value is an opcode, its mask is that of the opcode's field classes (R81), and its command is
assembled from the operands of those classes. -/
structure OpcodeRow.HasClasses (r : OpcodeRow) (c1 c2 c3 c4 c5 : FieldClass) : Prop where
  classes : fieldClasses (FormatC.ofWord r.value).opcode = some [c1, c2, c3, c4, c5]
  value : FormatC.ofWord r.value = ⟨(FormatC.ofWord r.value).opcode, 0, 0, 0, 0, 0, 0⟩
  mask : FormatC.ofWord r.mask = ⟨0xFF, c1.mask, c2.mask, c3.mask, c4.mask, c5.mask, 0xF⟩
  build : ∀ w, encode (r.build w) = assemble (FormatC.ofWord r.value).opcode.toNat (c1.operand w 8) (c2.operand w 12)
    (c3.operand w 16) (c4.operand w 20) (c5.operand w 24)

theorem opcodeRows_haveClasses : ∀ r ∈ opcodeRows, ∃ c1 c2 c3 c4 c5, r.HasClasses c1 c2 c3 c4 c5 := by
  simp only [opcodeRows, List.forall_mem_cons]
  refine ⟨?_, ?_, ?_, ?_, ?_, ?_, ?_, ?_, ?_, ?_, ?_, ?_, ?_, fun r hr => absurd hr List.not_mem_nil⟩ <;>
    exact ⟨_, _, _, _, _, rfl, by decide, by decide, fun _ => rfl⟩

/-- The check of R81 on a word with the opcode of a row. -/
theorem OpcodeRow.HasClasses.wellFormed_iff {r : OpcodeRow} {c1 c2 c3 c4 c5 : FieldClass}
    (hr : r.HasClasses c1 c2 c3 c4 c5) {f : FormatC} (h : f.opcode = (FormatC.ofWord r.value).opcode) :
    f.wellFormed = true ↔ c1.admits f.rd = true ∧ c2.admits f.rs1 = true ∧ c3.admits f.rs2 = true ∧
      c4.admits f.rs3 = true ∧ c5.admits f.rs4 = true ∧ f.zero = 0 := by
  simp only [FormatC.wellFormed, h, hr.classes, List.zip_cons_cons, List.zip_nil_left, List.all_cons, List.all_nil,
    Bool.and_eq_true, beq_iff_eq]
  tauto

/-- The mask test of a row is the check of R81 on the fields, with the opcode of the row. -/
theorem and_mask_eq_value_iff {r : OpcodeRow} (hr : r ∈ opcodeRows) (w : Word) :
    w &&& r.mask = r.value ↔
      (FormatC.ofWord w).opcode = (FormatC.ofWord r.value).opcode ∧ (FormatC.ofWord w).wellFormed = true := by
  obtain ⟨c1, c2, c3, c4, c5, hrow⟩ := opcodeRows_haveClasses r hr
  have hop : (FormatC.ofWord w).opcode &&& 0xFF = (FormatC.ofWord w).opcode := BitVec.and_allOnes
  have hzero : (FormatC.ofWord w).zero &&& 0xF = (FormatC.ofWord w).zero := BitVec.and_allOnes
  rw [← ofWord_injective.eq_iff, ofWord_and, hrow.mask, hrow.value]
  simp only [FormatC.mk.injEq, hop, hzero, FieldClass.and_mask_eq_zero_iff]
  exact and_congr_right fun h => (hrow.wellFormed_iff h).symm

theorem exists_row_of_fieldClasses {op : BitVec 8} (h : fieldClasses op ≠ none) :
    ∃ r ∈ opcodeRows, (FormatC.ofWord r.value).opcode = op := by
  have hmem : op ∈ opcodeRows.map fun r => (FormatC.ofWord r.value).opcode := by
    revert h
    revert op
    decide
  simpa using hmem

/-- No two rows of R84 have one opcode. -/
theorem opcodeRows_opcode_nodup : (opcodeRows.map fun r => (FormatC.ofWord r.value).opcode).Nodup := by decide

/-! ### Selection -/

/-- At most one row selects a word, so the first found is the one that does. -/
theorem selectRow_eq_some_iff (w : Word) (r : OpcodeRow) :
    selectRow w = some r ↔ r ∈ opcodeRows ∧ w &&& r.mask = r.value := by
  have hsound : ∀ {q}, selectRow w = some q → q ∈ opcodeRows ∧ w &&& q.mask = q.value := fun h =>
    ⟨List.mem_of_find?_eq_some h, by simpa using List.find?_some h⟩
  refine ⟨hsound, fun ⟨hr, h⟩ => ?_⟩
  have hsome : (selectRow w).isSome := List.find?_isSome.2 ⟨r, hr, by simpa using h⟩
  obtain ⟨q, hq⟩ := Option.isSome_iff_exists.1 hsome
  obtain ⟨hqmem, hqmask⟩ := hsound hq
  have hqr : (FormatC.ofWord q.value).opcode = (FormatC.ofWord r.value).opcode :=
    ((and_mask_eq_value_iff hqmem w).1 hqmask).1.symm.trans ((and_mask_eq_value_iff hr w).1 h).1
  rw [hq, List.inj_on_of_nodup_map opcodeRows_opcode_nodup hqmem hr hqr]

/-- A word decodes to what the row that selects it builds from it, and to nothing else. -/
theorem decode_eq_ok_iff (w : Word) (i : Instr) :
    decode w = .ok i ↔ ∃ r ∈ opcodeRows, w &&& r.mask = r.value ∧ r.build w = i := by
  have hrow : decode w = .ok i ↔ ∃ r, selectRow w = some r ∧ r.build w = i := by
    rw [decode]
    cases selectRow w <;> simp
  simp only [hrow, selectRow_eq_some_iff, and_assoc]

theorem decodes_iff_wellFormed (w : Word) : (∃ i, decode w = .ok i) ↔ (FormatC.ofWord w).wellFormed = true := by
  simp only [decode_eq_ok_iff]
  constructor
  · rintro ⟨_, r, hr, hmask, -⟩
    exact ((and_mask_eq_value_iff hr w).1 hmask).2
  · intro hw
    have hclasses : fieldClasses (FormatC.ofWord w).opcode ≠ none := by
      intro h
      simp [FormatC.wellFormed, h] at hw
    obtain ⟨r, hr, hop⟩ := exists_row_of_fieldClasses hclasses
    exact ⟨_, r, hr, (and_mask_eq_value_iff hr w).2 ⟨hop.symm, hw⟩, rfl⟩

/-- Settles O3: the mask test of each row is the field-by-field check, and the rows cover the assigned opcodes. -/
theorem legalIsWellFormed : Obligations.LegalIsWellFormed := by
  unfold Obligations.LegalIsWellFormed
  exact decodes_iff_wellFormed

/-! ### A legal word has one reading -/

theorem assemble_fields {w : Word} (h : field w 28 = 0) :
    assemble (w.toNat % 256) (field w 8) (field w 12) (field w 16) (field w 20) (field w 24) = w := by
  have hsum := toNat_eq_fields w
  rw [h, Nat.mul_zero, Nat.add_zero] at hsum
  rw [assemble, ← hsum, BitVec.ofNat_toNat, BitVec.setWidth_eq]

/-- What a row builds from a word that it selects is assembled to that word. -/
theorem encode_build {r : OpcodeRow} (hr : r ∈ opcodeRows) {w : Word} (h : w &&& r.mask = r.value) :
    encode (r.build w) = w := by
  obtain ⟨hop, hw⟩ := (and_mask_eq_value_iff hr w).1 h
  obtain ⟨c1, c2, c3, c4, c5, hrow⟩ := opcodeRows_haveClasses r hr
  obtain ⟨h1, h2, h3, h4, h5, hzero⟩ := (hrow.wellFormed_iff hop).1 hw
  have hfield : field w 28 = 0 := by
    rw [← extractLsb'_four_toNat]
    exact congrArg BitVec.toNat hzero
  rw [hrow.build, ← hop, ofWord_opcode_toNat, FieldClass.operand_eq_field h1, FieldClass.operand_eq_field h2,
    FieldClass.operand_eq_field h3, FieldClass.operand_eq_field h4, FieldClass.operand_eq_field h5,
    assemble_fields hfield]

/-- Settles O2: the row that selects a word accounts for each of its fields. -/
theorem encodeOfDecode : Obligations.EncodeOfDecode := by
  unfold Obligations.EncodeOfDecode
  intro w i h
  obtain ⟨r, hr, hmask, rfl⟩ := (decode_eq_ok_iff w i).1 h
  exact encode_build hr hmask

/-! ### A command is read back -/

/-- The place of a command's row in the table of R84. -/
def Instr.rowIndex : Instr → Fin 13
  | .gcd _ _ _ => 0
  | .modinv _ _ _ => 1
  | .modexp _ _ _ _ => 2
  | .bytelen _ _ => 3
  | .isprime _ _ _ => 4
  | .genprime _ _ => 5
  | .mgf1 _ _ _ => 6
  | .oaepenc _ _ _ _ => 7
  | .oaepdec _ _ _ _ => 8
  | .pssenc _ _ _ _ => 9
  | .pssver _ _ _ _ _ => 10
  | .os2ip _ _ => 11
  | .i2osp _ _ _ => 12

/-- The row of a command. -/
def Instr.row (i : Instr) : OpcodeRow := opcodeRows[i.rowIndex]

theorem Instr.row_mem (i : Instr) : i.row ∈ opcodeRows := List.getElem_mem _

/-- The word of a command passes the check of R81 and R87. -/
theorem wellFormed_encode (i : Instr) : (FormatC.ofWord (encode i)).wellFormed = true :=
  match i with
  | .gcd rd rs1 rs2 => Laws.Formed.gcd rd rs1 rs2
  | .modinv rd rs1 rs2 => Laws.Formed.modinv rd rs1 rs2
  | .modexp rd rs1 rs2 rs3 => Laws.Formed.modexp rd rs1 rs2 rs3
  | .bytelen rd rs1 => Laws.Formed.bytelen rd rs1
  | .isprime rd rs1 rs2 => Laws.Formed.isprime rd rs1 rs2
  | .genprime rd rs1 => Laws.Formed.genprime rd rs1
  | .mgf1 rd rs1 rs2 => Laws.Formed.mgf1 rd rs1 rs2
  | .oaepenc rd rs1 rs2 rs3 => Laws.Formed.oaepenc rd rs1 rs2 rs3
  | .oaepdec rd rs1 rs2 rs3 => Laws.Formed.oaepdec rd rs1 rs2 rs3
  | .pssenc rd rs1 rs2 rs3 => Laws.Formed.pssenc rd rs1 rs2 rs3
  | .pssver rd rs1 rs2 rs3 rs4 => Laws.Formed.pssver rd rs1 rs2 rs3 rs4
  | .os2ip rd rs1 => Laws.Formed.os2ip rd rs1
  | .i2osp rd rs1 rs2 => Laws.Formed.i2osp rd rs1 rs2

/-- The word of a command has the opcode of the command's row. -/
theorem opcode_encode (i : Instr) : (FormatC.ofWord (encode i)).opcode = (FormatC.ofWord i.row.value).opcode := by
  cases i <;> rw [encode, ofWord_assemble (by omega) (by omega) (by omega) (by omega) (by omega) (by omega)] <;> rfl

section
variable {op a b c d e : Nat} (hop : op < 256) (ha : a < 16) (hb : b < 16) (hc : c < 16) (hd : d < 16) (he : e < 16)
include hop ha hb hc hd he

theorem field_assemble_rd : field (assemble op a b c d e) 8 = a := (field_assemble hop ha hb hc hd he).1
theorem field_assemble_rs1 : field (assemble op a b c d e) 12 = b := (field_assemble hop ha hb hc hd he).2.1
theorem field_assemble_rs2 : field (assemble op a b c d e) 16 = c := (field_assemble hop ha hb hc hd he).2.2.1
theorem field_assemble_rs3 : field (assemble op a b c d e) 20 = d := (field_assemble hop ha hb hc hd he).2.2.2.1
theorem field_assemble_rs4 : field (assemble op a b c d e) 24 = e := (field_assemble hop ha hb hc hd he).2.2.2.2

end

/-- The row of a command builds the command from its word: each operand is read from the place where R85 puts it. -/
theorem build_encode (i : Instr) : i.row.build (encode i) = i := by
  cases i <;>
    simp (disch := omega) [Instr.row, Instr.rowIndex, opcodeRows, encode, xField, bField, field_assemble_rd,
      field_assemble_rs1, field_assemble_rs2, field_assemble_rs3, field_assemble_rs4]

/-- Settles O1: the row of the command selects the command's word, and builds the command from it. -/
theorem decodeOfEncode : Obligations.DecodeOfEncode := by
  unfold Obligations.DecodeOfEncode
  intro i
  have hmask : encode i &&& i.row.mask = i.row.value :=
    (and_mask_eq_value_iff i.row_mem _).2 ⟨opcode_encode i, wellFormed_encode i⟩
  exact (decode_eq_ok_iff _ _).2 ⟨i.row, i.row_mem, hmask, build_encode i⟩

/-- Settles O4: each of the thirteen words is the word of its command. -/
theorem tableWordsDecode : Obligations.TableWordsDecode := by
  unfold Obligations.TableWordsDecode
  exact ⟨decodeOfEncode (.gcd 2 0 1), decodeOfEncode (.modinv 3 0 1), decodeOfEncode (.modexp 3 0 1 2),
    decodeOfEncode (.bytelen 4 2), decodeOfEncode (.isprime 1 0 2), decodeOfEncode (.genprime 0 1),
    decodeOfEncode (.mgf1 3 3 7), decodeOfEncode (.oaepenc 1 0 2 4), decodeOfEncode (.oaepdec 0 1 2 4),
    decodeOfEncode (.pssenc 1 0 5 6), decodeOfEncode (.pssver 7 0 1 5 6), decodeOfEncode (.os2ip 3 1),
    decodeOfEncode (.i2osp 1 3 4)⟩

end Sys2Proof
end

section
/-! PROOFS. The operand writes: `X[i] <- v` (00_scope.md R15), `BLEN[j] <- n` (10_state.md R30), `B[j] <- v` (R26). -/

namespace Sys2Proof.Machine

/-! ### Registers and lengths -/

theorem State.readX_writeX (s : State) (i j : XReg) (v : Nat) :
    (s.writeX i v).readX j = if j = i then v else s.readX j := by
  simp only [State.readX, State.writeX, Fin.getElem_fin, Vector.getElem_set, Fin.ext_iff, eq_comm]

theorem State.readLen_writeLen (s : State) (i j : BReg) (n : Nat) :
    (s.writeLen i n).readLen j = if j = i then n else s.readLen j := by
  simp only [State.readLen, State.writeLen, Fin.getElem_fin, Vector.getElem_set, Fin.ext_iff, eq_comm]

/-- A buffer write is a length write on BLEN. -/
theorem State.readLen_writeB (s : State) (i j : BReg) (v : List Byte) :
    (s.writeB i v).readLen j = if j = i then v.length else s.readLen j :=
  s.readLen_writeLen i j v.length

/-- Settles O7: the register file is a vector with one entry set. -/
theorem registerWrite : Obligations.RegisterWrite := by
  unfold Obligations.RegisterWrite
  exact State.readX_writeX

/-! ### Buffers -/

/-- Byte `o` of the destination's data array after a buffer write (R26). -/
theorem State.readData_writeB (s : State) (j : BReg) (v : List Byte) (o : Nat) :
    (s.writeB j v).readData j o =
      if o < v.length then v.getD o 0 else if o < s.cfg.bufBytes then 0 else s.readData j o := by
  simp only [State.readData, State.read_writeB, Nat.le_add_right, true_and, Nat.add_lt_add_iff_left,
    Nat.add_sub_cancel_left]

/-- A buffer write that fits stays in the destination's data array. -/
theorem State.read_writeB_of_outside {s : State} {j : BReg} {v : List Byte} (hv : v.length ≤ s.cfg.bufBytes) {a : Nat}
    (ha : a < bufferBase j ∨ bufferBase j + s.cfg.bufBytes ≤ a) :
    Memory.read (s.writeB j v).mem a = Memory.read s.mem a := by
  rw [State.read_writeB, if_neg (by omega), if_neg (by omega)]

/-- Settles O8: the string and the zeros behind it fill the array, whose bytes are nobody else's. -/
theorem bufferWrite : Obligations.BufferWrite := by
  unfold Obligations.BufferWrite
  intro s j v hv
  refine ⟨s.readB_writeB j v, ?_, fun o ho => ?_, fun o hlo hhi => ?_, fun k hk => ?_,
    fun a ha => State.read_writeB_of_outside hv ha, fun i => rfl, rfl, rfl, rfl, rfl, rfl, rfl, rfl, rfl, rfl⟩
  · rw [State.readLen_writeB, if_pos rfl]
  · rw [State.readData_writeB, if_pos ho]
  · rw [State.readData_writeB, if_neg (by omega), if_pos hhi]
  · rw [State.readLen_writeB, if_neg hk]

end Sys2Proof.Machine
end

section
/-! PROOFS. The host window (20_memory.md): its map (R52), the control registers (10_state.md R27 to R30), the refused accesses (R58),
and the accesses that are none (R51). -/

namespace Sys2Proof.Machine

open Sys2Proof.Claims

/-! ### The map -/

theorem regionAt_blen (j : BReg) : regionAt (0x000010 + 4 * j.val) = .blen j := by
  have hj := j.isLt
  have hlen : Fin.ofNat 4 ((0x000010 + 4 * j.val - 0x000010) / 4) = j := by
    apply Fin.ext
    rw [Fin.val_ofNat]
    omega
  rw [regionAt, if_neg (by omega), if_neg (by omega), if_neg (by omega), if_pos (by omega), hlen]

/-- Nothing stands below the register windows but at the offsets of the control registers and the lengths (R53). -/
theorem regionAt_reserved_of_lt {off : Nat} (hlt : off < 0x010000) (h : off % 4 ≠ 0 ∨ off = 0x00000C ∨ 0x000020 ≤ off) :
    regionAt off = .reserved := by
  rw [regionAt, if_neg (by omega), if_neg (by omega), if_neg (by omega), if_neg (by omega), if_neg (by omega),
    if_neg (by omega)]

theorem regionAt_reserved_between {off : Nat} (hlo : 0x090000 ≤ off) (hhi : off ≤ 0x0FFFFF) :
    regionAt off = .reserved := by
  rw [regionAt, if_neg (by omega), if_neg (by omega), if_neg (by omega), if_neg (by omega), if_neg (by omega),
    if_neg (by omega)]

/-- Settles O24: each line of the map is one branch of `regionAt`, the reserved ranges are the last. -/
theorem windowMap : Obligations.WindowMap := by
  unfold Obligations.WindowMap
  refine ⟨rfl, rfl, rfl, rfl, regionAt_blen, fun off hlt h => ?_, fun off hlo hhi => ?_,
    fun i o ho => regionAt_xWindow i ho, fun off hlo hhi => regionAt_reserved_between hlo hhi,
    fun j o ho => regionAt_bWindow j ho⟩
  · exact regionAt_reserved_of_lt (by omega) (.inl h)
  · exact regionAt_reserved_of_lt (by omega) (.inr (.inr hlo))

/-! ### The STATUS word -/

/-- The failure that a code of R250 stands for. -/
def failureOfCode (c : BitVec 8) : Option Failure :=
  match c.toNat with
  | 0x01 => some .illegalCommand
  | 0x02 => some .rangeError
  | 0x03 => some .zeroModulus
  | 0x04 => some .badParameter
  | 0x10 => some .noInverse
  | 0x11 => some .messageTooLarge
  | 0x12 => some .paddingError
  | _ => none

theorem failureOfCode_errCode (e : Option Failure) : failureOfCode (errCode e) = e := by
  rcases e with _ | e
  · rfl
  · cases e <;> rfl

/-- Settles O25: the table is the definition, and a code gives its failure back. -/
theorem failureCodes : Obligations.FailureCodes := by
  unfold Obligations.FailureCodes
  exact ⟨rfl, rfl, rfl, rfl, rfl, rfl, rfl, rfl, fun _ _ h => Function.LeftInverse.injective failureOfCode_errCode h⟩

/-- Settles O26: the three items stand above each other without a carry. -/
theorem statusBits : Obligations.StatusBits := by
  unfold Obligations.StatusBits
  intro s b
  have hb := Bool.toNat_lt s.busy
  have hh := Bool.toNat_lt s.herr
  have hsum : s.busy.toNat + 2 * s.herr.toNat + 2 ^ 8 * (errCode s.err).toNat =
      2 ^ 8 * (errCode s.err).toNat + (2 ^ 1 * s.herr.toNat + s.busy.toNat) := by ring
  rw [State.statusWord, BitVec.getLsbD_ofNat, hsum, Nat.testBit_two_pow_mul_add _ (by omega),
    Nat.testBit_two_pow_mul_add _ (by omega), Nat.testBit_bool_toNat, Nat.testBit_bool_toNat, BitVec.testBit_toNat]
  rcases Nat.lt_or_ge b 8 with hlo | hlo
  · have hout : ¬ (8 ≤ b ∧ b ≤ 15) := by omega
    rw [if_neg hout]
    rcases b with _ | _ | b
    · simp
    · simp
    · simp [hlo]
  · by_cases hhi : b ≤ 15
    · simp [hlo, hhi, show b ≠ 0 by omega, show b ≠ 1 by omega, show b < 32 by omega, show ¬ b < 8 by omega]
    · have hcode : (errCode s.err).getLsbD (b - 8) = false := BitVec.getLsbD_of_ge _ _ (by omega)
      simp [hcode, hhi, show b ≠ 0 by omega, show b ≠ 1 by omega, show ¬ b < 8 by omega]

/-! ### Reads and writes of the control registers -/

theorem State.readPort_status (s : State) : s.readPort 0x000004 4 = some s.statusWord.toNat := rfl

theorem State.readPort_cmd (s : State) : s.readPort 0x000000 4 = some s.pend.toNat := rfl

theorem State.readPort_blen {s : State} (hb : s.busy = false) (j : BReg) :
    s.readPort (0x000010 + 4 * j.val) 4 = some (s.readLen j) := by
  simp only [State.readPort, regionAt_blen, hb, and_self, if_true]

theorem State.writePort_blen (s : State) (j : BReg) (v : Word) :
    s.writePort (0x000010 + 4 * j.val) 4 v =
      if s.busy = false ∧ v.toNat ≤ s.cfg.bufBytes then some (s.writeLen j v.toNat) else none := by
  simp only [State.writePort, regionAt_blen, true_and]

theorem blen_lt_windowSize (j : BReg) : 0x000010 + 4 * j.val < windowSize := by
  have hj := j.isLt
  rw [windowSize]
  omega

/-- A read of STATUS, at any time. -/
theorem State.hostRead_status (s : State) :
    s.hostRead (s.cfg.base + 0x000004) 4 = { s with rdata := s.statusWord } := by
  rw [State.hostRead_of_readPort (by decide) (.inr (.inr rfl)) s.readPort_status, BitVec.ofNat_toNat,
    BitVec.setWidth_eq]

theorem State.hostRead_cmd (s : State) : s.hostRead s.cfg.base 4 = { s with rdata := s.pend } := by
  have h := State.hostRead_of_readPort (off := 0x000000) (by decide) (.inr (.inr rfl)) s.readPort_cmd
  rwa [BitVec.ofNat_toNat, BitVec.setWidth_eq] at h

theorem State.hostRead_blen {s : State} (hb : s.busy = false) (j : BReg) :
    s.hostRead (s.cfg.base + (0x000010 + 4 * j.val)) 4 = { s with rdata := BitVec.ofNat 32 (s.readLen j) } :=
  State.hostRead_of_readPort (blen_lt_windowSize j) (.inr (.inr rfl)) (State.readPort_blen hb j)

theorem State.hostWrite_blen {s : State} (hb : s.busy = false) (j : BReg) {v : Word} (hv : v.toNat ≤ s.cfg.bufBytes) :
    s.hostWrite (s.cfg.base + (0x000010 + 4 * j.val)) 4 v = s.writeLen j v.toNat := by
  refine State.hostWrite_of_writePort (blen_lt_windowSize j) (.inr (.inr rfl)) ?_
  rw [State.writePort_blen, if_pos ⟨hb, hv⟩]

/-- Settles O27: the port admits the reads of CMD, STATUS and CTRL in every state, those of BLEN with BUSY = 0. -/
theorem controlReads : Obligations.ControlReads := by
  unfold Obligations.ControlReads
  intro s
  refine ⟨s.hostRead_cmd, s.hostRead_status, (controlWrite s 0).1, fun j hb => ?_⟩
  rw [Nat.add_assoc, State.hostRead_blen hb]

/-- Settles O29: the port admits the write exactly under the two conditions. -/
theorem lengthWrite : Obligations.LengthWrite := by
  unfold Obligations.LengthWrite
  intro s j v
  rw [Nat.add_assoc]
  refine ⟨fun hb hv => State.hostWrite_blen hb j hv, fun h => ?_⟩
  refine State.hostWrite_of_writePort_none (blen_lt_windowSize j) (.inr (.inr rfl)) ?_
  rw [State.writePort_blen, if_neg]
  rintro ⟨hb, hv⟩
  rcases h with h | h
  · simp [hb] at h
  · omega

/-! ### Refused accesses -/

/-- A read the port refuses sets HERR and returns some value of its width (R58). -/
theorem State.hostRead_of_readPort_none {s : State} {off n : Nat} (hoff : off < windowSize) (hn : n = 1 ∨ n = 2 ∨ n = 4)
    (h : s.readPort off n = none) :
    s.hostRead (s.cfg.base + off) n =
      { s with herr := true, rdata := BitVec.ofNat 32 (Config.refusedRead s.drawn % 256 ^ n), drawn := s.drawn + 1 } := by
  simp only [State.hostRead, accessOffset_base s.cfg hoff hn, h]

/-- An access to a data window is admitted with BUSY = 0, aligned and inside the window. -/
theorem not_admitted_iff (s : State) (off o n size : Nat) :
    ¬ (s.busy = false ∧ off % n = 0 ∧ o + n ≤ size) ↔ badDataAccess off o n size ∨ s.busy = true := by
  rw [badDataAccess, ← Bool.not_eq_false, ← Nat.not_le]
  tauto

/-- The reads the port refuses are those of R58's list. -/
theorem readPort_eq_none_iff (s : State) (off n : Nat) : s.readPort off n = none ↔ refusedRead s off n := by
  rw [State.readPort, refusedRead]
  cases regionAt off with
  | cmd | status | ctrl => simp
  | blen j => simp [← Bool.not_eq_false, imp_iff_not_or]
  | xWindow i o => simpa only [ite_eq_right_iff, reduceCtorEq, imp_false] using not_admitted_iff s off o n _
  | bWindow j o => simpa only [ite_eq_right_iff, reduceCtorEq, imp_false] using not_admitted_iff s off o n _
  | reserved => simp

/-- The writes the port refuses are those of R58's list. -/
theorem writePort_eq_none_iff (s : State) (off n : Nat) (v : Word) :
    s.writePort off n v = none ↔ refusedWrite s off n v := by
  rw [State.writePort, refusedWrite]
  cases regionAt off with
  | cmd => simp [← Bool.not_eq_false, imp_iff_not_or]
  | status | ctrl | reserved => simp
  | blen j => simp [← Bool.not_eq_false, imp_iff_not_or]
  | xWindow i o => simpa only [ite_eq_right_iff, reduceCtorEq, imp_false] using not_admitted_iff s off o n _
  | bWindow j o => simpa only [ite_eq_right_iff, reduceCtorEq, imp_false] using not_admitted_iff s off o n _

/-- Settles O30: the list is when the port answers nothing. -/
theorem refusedAccesses : Obligations.RefusedAccesses := by
  unfold Obligations.RefusedAccesses
  intro s off n v hoff hn
  rw [← readPort_eq_none_iff, ← writePort_eq_none_iff, ← ne_eq, ← ne_eq, Option.ne_none_iff_exists',
    Option.ne_none_iff_exists']
  refine ⟨fun h => ?_, fun ⟨r, h⟩ => ⟨_, State.hostRead_of_readPort hoff hn h⟩,
    fun h => State.hostWrite_of_writePort_none hoff hn h, fun ⟨t, h⟩ => ⟨t, h, State.hostWrite_of_writePort hoff hn h⟩⟩
  exact ⟨_, Nat.mod_lt _ (Nat.pow_pos (by decide)), State.hostRead_of_readPort_none hoff hn h⟩

/-- Settles O31: a read leaves all of these, and the writes that change one of them need BUSY = 0. -/
theorem busyLocksOperands : Obligations.BusyLocksOperands := by
  unfold Obligations.BusyLocksOperands
  intro s addr n v hbusy
  constructor
  · obtain ⟨h, r, d, hread⟩ := s.hostRead_cases addr n
    rw [hread]
    exact ⟨rfl, rfl, rfl, rfl, hbusy⟩
  · have hwritten := s.hostWrite_cases addr n v
    generalize s.hostWrite addr n v = t at hwritten ⊢
    cases hwritten with
    | foreign | refused | acknowledged => exact ⟨rfl, rfl, rfl, rfl, hbusy⟩
    | issued _ hb | length _ _ hb | register _ _ hb | bytes _ _ _ hb => simp [hbusy] at hb

/-! ### Accesses that are none -/

theorem accessOffset_eq_none {P : Config.Params} {addr n : Nat}
    (h : addr < P.base ∨ P.base + 0x140000 ≤ addr ∨ (n ≠ 1 ∧ n ≠ 2 ∧ n ≠ 4)) : accessOffset P addr n = none := by
  rw [accessOffset, windowSize, if_neg (by omega)]

/-- Settles O35: such an access has no offset in the window. -/
theorem foreignAccess : Obligations.ForeignAccess := by
  unfold Obligations.ForeignAccess
  intro s addr n v h
  have hnone := accessOffset_eq_none h
  constructor
  · simp only [State.hostWrite, hnone]
  · refine ⟨BitVec.ofNat 32 (Config.platformRead s.drawn), ?_⟩
    simp only [State.hostRead, hnone]

end Sys2Proof.Machine
end

section
/-! PROOFS. Steps and the invariants they keep (10_state.md R34, 70_reset_and_hazards.md R280). -/

namespace Sys2Proof.Machine

open Sys2Proof.Claims

/-! ### The four invariants -/

theorem State.registersFit_writeX {s : State} (h : s.registersFit) (i : XReg) {v : Nat}
    (hv : v < 2 ^ (8 * s.cfg.xBytes)) : (s.writeX i v).registersFit := by
  intro j
  rw [State.readX_writeX]
  split
  · exact hv
  · exact h j

theorem State.lengthsFit_writeLen {s : State} (h : s.lengthsFit) (i : BReg) {n : Nat} (hn : n ≤ s.cfg.bufBytes) :
    (s.writeLen i n).lengthsFit := by
  intro j
  rw [State.readLen_writeLen]
  split
  · exact hn
  · exact h j

theorem State.lengthsFit_writeB {s : State} (h : s.lengthsFit) (i : BReg) {v : List Byte}
    (hv : v.length ≤ s.cfg.bufBytes) : (s.writeB i v).lengthsFit :=
  State.lengthsFit_writeLen h i hv

/-- With BUSY = 0 only the ranges of R34 say anything. -/
theorem State.Inv.of_idle {s : State} (hx : s.registersFit) (hl : s.lengthsFit) (hb : s.busy = false) : s.Inv :=
  ⟨hx, hl, fun h => by simp [hb] at h, fun h => by simp [hb] at h⟩

theorem Answer.inv {i : Instr} {s t : State} (ha : Answer i s t) (hs : s.Inv) : t.Inv := by
  obtain ⟨hx, hl, hclean, hlegal⟩ := hs
  cases ha with
  | failed e _ => exact .of_idle hx hl rfl
  | wroteX rd v k _ hv => exact .of_idle (State.registersFit_writeX (s := s.takeDraws k) hx rd (hv hx)) hl rfl
  | wroteB rd v k _ hv => exact .of_idle hx (State.lengthsFit_writeB (s := s.takeDraws k) hl rd (hv hl)) rfl
  | retried => exact ⟨hx, hl, hclean, hlegal⟩

theorem Turn.inv {s t : State} (ht : Turn s t) (hs : s.Inv) : t.Inv := by
  cases ht with
  | idle => exact hs
  | ran _ _ _ _ ha => exact ha.inv hs

/-- An illegal word is a failure at once, so no pending word is illegal (R191). -/
theorem State.Inv.of_issue {s : State} (hx : s.registersFit) (hl : s.lengthsFit) (he : s.err = none) (w : Word) :
    (s.issue w).Inv := by
  cases hd : decode w with
  | ok i =>
    rw [State.issue_legal hd]
    exact ⟨hx, hl, fun _ => he, fun _ => ⟨i, hd⟩⟩
  | error c =>
    rw [State.issue_illegal hd]
    exact .of_idle hx hl rfl

theorem State.busyClean_acknowledge {s : State} (h : s.busyClean) (v : Word) : (s.acknowledge v).busyClean := by
  intro hb
  rw [State.acknowledge_err, h hb, ite_self]

theorem Written.inv {s t : State} (hw : Written s t) (hs : s.Inv) : t.Inv := by
  obtain ⟨hx, hl, hclean, hlegal⟩ := hs
  cases hw with
  | foreign | refused | bytes => exact ⟨hx, hl, hclean, hlegal⟩
  | issued w _ he => exact .of_issue hx hl he w
  | acknowledged v => exact ⟨hx, hl, State.busyClean_acknowledge hclean v, hlegal⟩
  | length j n _ hn => exact ⟨hx, State.lengthsFit_writeLen hl j hn, hclean, hlegal⟩
  | register i v _ hv => exact ⟨State.registersFit_writeX hx i hv, hl, hclean, hlegal⟩

theorem State.Inv.hostRead {s : State} (hs : s.Inv) (addr n : Nat) : (s.hostRead addr n).Inv := by
  obtain ⟨h, r, d, hread⟩ := s.hostRead_cases addr n
  rw [hread]
  exact hs

/-- An engine at its reset values meets the invariants, whatever its surroundings. -/
theorem State.Inv.of_zero {s : State} (hx : s.x = Vector.replicate 8 0) (hl : s.blen = Vector.replicate 4 0)
    (hb : s.busy = false) : s.Inv := by
  refine .of_idle (fun i => ?_) (fun j => ?_) hb
  · rw [State.readX_of_x_zero hx]
    exact Nat.two_pow_pos _
  · rw [State.readLen_of_blen_zero hl]
    exact Nat.zero_le _

theorem Stepped.inv {s t : State} (ht : Stepped s t) (hs : s.Inv) : t.Inv := by
  have hport : ∀ p, State.Inv { s with port := p } := fun _ => hs
  cases ht with
  | turn p _ hturn => exact hturn.inv (hport p)
  | read p addr n => exact (hport p).hostRead addr n
  | write p addr n v => exact (State.hostWrite_cases _ addr n v).inv (hport p)
  | reset p => exact .of_zero rfl rfl rfl

/-- Settles O12: the engine's turn, a host read, a host write and the reset event each keep the invariants. -/
theorem invariantKept : Obligations.InvariantKept := by
  unfold Obligations.InvariantKept
  exact fun s t hs h => (step_inv h).inv hs

theorem State.memoryFits_of_nil {s : State} (h : s.mem = []) : s.memoryFits := by
  rw [State.memoryFits, h]
  exact ⟨rfl, fun c hc => absurd hc List.not_mem_nil⟩

/-- Settles O11: all registers and lengths are 0, BUSY is 0 and there is no cell. -/
theorem invariantAtReset : Obligations.InvariantAtReset := by
  unfold Obligations.InvariantAtReset
  exact ⟨.of_zero rfl rfl rfl, State.memoryFits_of_nil rfl⟩

/-- A run of `k + 1` steps that ends well begins with a step that does. -/
theorem run_succ_inv {k : Nat} {s t : State} (h : core.run (k + 1) s = .next t) :
    ∃ u, step s = .next u ∧ core.run k u = .next t := by
  simp only [Host.Core.run] at h
  split at h
  · next u hu => exact ⟨u, hu, h⟩
  · cases h
  · cases h

/-- What every step keeps, every run keeps. -/
theorem run_preserves {p : State → Prop} (hstep : ∀ s t, p s → step s = .next t → p t) (k : Nat) {s t : State}
    (hs : p s) (h : core.run k s = .next t) : p t := by
  induction k generalizing s with
  | zero => cases h; exact hs
  | succ k ih =>
    obtain ⟨u, hu, hrun⟩ := run_succ_inv h
    exact ih (hstep s u hs hu) hrun

/-- Settles O14: the state at reset meets the invariants under every configuration, and every step keeps them. -/
theorem invariantReachable : Obligations.InvariantReachable := by
  unfold Obligations.InvariantReachable
  exact fun P events draws k t h => run_preserves invariantKept k (.of_zero rfl rfl rfl) h

/-! ### The form of the memory -/

theorem State.memoryFits_writeBytes {s : State} (h : s.memoryFits) (j : BReg) {o : Nat} {v : List Byte}
    (ho : o + v.length ≤ s.cfg.bufBytes) :
    State.memoryFits { s with mem := Memory.writeBytes s.mem (bufferBase j + o) v } := by
  obtain ⟨hwf, hcells⟩ := h
  refine ⟨Memory.wf_writeBytes hwf _ _, fun c hc => ?_⟩
  rcases Memory.mem_writeBytes hc with hc | ⟨hlo, hhi⟩
  · exact hcells c hc
  · exact ⟨j, by omega, show c.1 < bufferBase j + s.cfg.bufBytes by omega⟩

theorem State.memoryFits_writeB {s : State} (h : s.memoryFits) (j : BReg) {v : List Byte}
    (hv : v.length ≤ s.cfg.bufBytes) : (s.writeB j v).memoryFits := by
  obtain ⟨hwf, hcells⟩ := h
  have hclear : State.memoryFits { s with mem := Memory.clear s.mem (bufferBase j) s.cfg.bufBytes } :=
    ⟨Memory.wf_clear hwf _ _, fun c hc => hcells c (Memory.mem_clear hc)⟩
  exact State.memoryFits_writeBytes hclear j (o := 0) (by simpa using hv)

theorem Answer.memoryFits {i : Instr} {s t : State} (ha : Answer i s t) (hl : s.lengthsFit) (hm : s.memoryFits) :
    t.memoryFits := by
  cases ha with
  | failed | wroteX | retried => exact hm
  | wroteB rd v k _ hv => exact State.memoryFits_writeB (s := s.takeDraws k) hm rd (hv hl)

theorem Turn.memoryFits {s t : State} (ht : Turn s t) (hl : s.lengthsFit) (hm : s.memoryFits) : t.memoryFits := by
  cases ht with
  | idle => exact hm
  | ran _ _ _ _ ha => exact ha.memoryFits hl hm

theorem Written.memoryFits {s t : State} (hw : Written s t) (hm : s.memoryFits) : t.memoryFits := by
  cases hw with
  | foreign | refused | acknowledged | length | register => exact hm
  | issued w =>
    cases hd : decode w with
    | ok i => rw [State.issue_legal hd]; exact hm
    | error c => rw [State.issue_illegal hd]; exact hm
  | bytes j o v _ ho => exact State.memoryFits_writeBytes hm j ho

theorem Stepped.memoryFits {s t : State} (ht : Stepped s t) (hl : s.lengthsFit) (hm : s.memoryFits) : t.memoryFits := by
  have hport : ∀ p, State.memoryFits { s with port := p } := fun _ => hm
  cases ht with
  | turn p _ hturn => exact hturn.memoryFits hl (hport p)
  | read p addr n =>
    obtain ⟨h, r, d, hread⟩ := State.hostRead_cases { s with port := p } addr n
    rw [hread]
    exact hm
  | write p addr n v => exact (State.hostWrite_cases _ addr n v).memoryFits (hport p)
  | reset p => exact State.memoryFits_of_nil rfl

/-- Settles O13: strings are written into data arrays only, and no longer than those. -/
theorem memoryFormKept : Obligations.MemoryFormKept := by
  unfold Obligations.MemoryFormKept
  rintro s t ⟨-, hl, -, -⟩ hm h
  exact (step_inv h).memoryFits hl hm

/-! ### What a step does with the head of the port -/

theorem engineTurn_of_pending {s : State} {i : Instr} (hb : s.busy = true) (hd : decode s.pend = .ok i) :
    engineTurn s = exec i s := by
  rw [engineTurn, if_pos hb, hd]

theorem engineTurn_of_idle {s : State} (hb : s.busy = false) : engineTurn s = .next s := by
  rw [engineTurn, if_neg (by simp [hb])]

theorem engineTurn_answers {s : State} (hlegal : s.pendingLegal) : ∃ t, engineTurn s = .next t := by
  cases hb : s.busy with
  | false => exact ⟨s, engineTurn_of_idle hb⟩
  | true =>
    obtain ⟨i, hd⟩ := hlegal hb
    obtain ⟨t, ht, -⟩ := exec_answers i s
    exact ⟨t, (engineTurn_of_pending hb hd).trans ht⟩

section
variable {s : State} {rest : List Event}

theorem step_of_nil (hp : s.port = []) : step s = engineTurn s := by
  rw [step, hp]

theorem step_of_engine (hp : s.port = .engine :: rest) : step s = engineTurn { s with port := rest } := by
  rw [step, hp]

theorem step_of_wait_busy (hb : s.busy = true) (hp : s.port = .wait :: rest) : step s = engineTurn s := by
  simp only [step, hp, hb, if_true]

/-- WAIT on an idle engine is one read of STATUS. -/
theorem step_of_wait_idle (hb : s.busy = false) (hp : s.port = .wait :: rest) :
    step s = .next { s with port := rest, rdata := s.statusWord } := by
  have hstep : step s = .next (State.hostRead { s with port := rest } (s.cfg.base + 0x000004) 4) := by
    rw [step, hp]
    exact if_neg (by simp [hb])
  rw [hstep, State.hostRead_port, State.hostRead_status]

theorem step_of_read {addr n : Nat} (hp : s.port = .read addr n :: rest) :
    step s = .next (State.hostRead { s with port := rest } addr n) := by
  rw [step, hp]

theorem step_of_reset (hp : s.port = .reset :: rest) : step s = .next (State.resetEvent { s with port := rest }) := by
  rw [step, hp]

end

/-- Settles O16: one case for each head of the port. -/
theorem stepRunsPending : Obligations.StepRunsPending := by
  unfold Obligations.StepRunsPending
  refine fun s rest => ⟨fun i hb hd => ⟨fun hp => ?_, fun hp => ?_, fun hp => ?_⟩,
    fun hb => ⟨fun hp => ?_, fun hp => ?_, fun hp => ?_⟩, fun addr n hp => step_of_read hp, fun addr n v hp => ?_⟩
  · rw [step_of_engine hp, engineTurn_of_pending (s := { s with port := rest }) hb hd]
  · rw [step_of_wait_busy hb hp, engineTurn_of_pending hb hd]
  · rw [step_of_nil hp, engineTurn_of_pending hb hd]
  · rw [step_of_engine hp, engineTurn_of_idle (s := { s with port := rest }) hb]
  · exact step_of_wait_idle hb hp
  · rw [step_of_nil hp, engineTurn_of_idle hb]
  · rw [step_of_write hp, State.hostWrite_port s rest]

/-- Settles O10: the step is the reset event, whose operands read the zero vectors and the empty memory. -/
theorem resetEventAbandons : Obligations.ResetEventAbandons := by
  unfold Obligations.ResetEventAbandons
  intro s rest hp
  exact ⟨_, step_of_reset hp, State.readX_of_x_zero rfl, State.readData_of_mem_nil rfl, State.readLen_of_blen_zero rfl,
    rfl, rfl, rfl, rfl, rfl, rfl, rfl, rfl, rfl⟩

/-- Settles O15: host accesses and the reset event always answer, the engine's turn because the pending word is legal. -/
theorem stepAlwaysAnswers : Obligations.StepAlwaysAnswers := by
  unfold Obligations.StepAlwaysAnswers
  rintro s ⟨-, -, -, hlegal⟩
  cases hp : s.port with
  | nil => rw [step_of_nil hp]; exact engineTurn_answers hlegal
  | cons e rest =>
    cases e with
    | read addr n => exact ⟨_, step_of_read hp⟩
    | write addr n v => exact ⟨_, step_of_write hp⟩
    | engine => rw [step_of_engine hp]; exact engineTurn_answers hlegal
    | wait =>
      cases hb : s.busy with
      | false => exact ⟨_, step_of_wait_idle hb hp⟩
      | true => rw [step_of_wait_busy hb hp]; exact engineTurn_answers hlegal
    | reset => exact ⟨_, step_of_reset hp⟩

/-! ### The life of a command -/

/-- Settles O18: the write to CMD is admitted and its word is legal; the step at WAIT is the turn. -/
theorem callProtocol : Obligations.CallProtocol := by
  unfold Obligations.CallProtocol
  intro s i rest hb he hp
  have hd := decodeOfEncode i
  refine ⟨_, ?_, rfl, ?_⟩
  · rw [step_of_write hp, State.hostWrite_cmd_issue hb he, State.issue_legal hd]
    rfl
  · rw [step_of_wait_busy rfl rfl, engineTurn_of_pending rfl hd]

/-- Settles O19: an answer that is no retry ends the command. -/
theorem turnCompletes : Obligations.TurnCompletes := by
  unfold Obligations.TurnCompletes
  intro i s hi
  obtain ⟨t, ht, ha⟩ := exec_answers i s
  refine ⟨t, ht, ?_⟩
  cases ha with
  | failed | wroteX | wroteB => rfl
  | retried rd rs1 _ h => exact absurd h (hi rd rs1)

/-- A command has one destination. -/
theorem destB_eq_none_of_destX {i : Instr} {rd : XReg} (h : destX i = some rd) : destB i = none := by
  cases i <;> first | rfl | cases h

/-- Settles O20: the answers that can be those of a command with an X destination. -/
theorem frameXDestination : Obligations.FrameXDestination := by
  unfold Obligations.FrameXDestination
  intro i rd s t hdest h
  cases exec_inv h with
  | failed e _ =>
    exact ⟨fun _ _ => rfl, fun _ => rfl, fun _ => rfl, rfl, rfl, rfl, rfl, rfl, fun _ => rfl⟩
  | wroteX rd' v k hd _ =>
    obtain rfl : rd' = rd := Option.some.inj (hd.symm.trans hdest)
    refine ⟨fun r hr => ?_, fun _ => rfl, fun _ => rfl, rfl, rfl, rfl, rfl, rfl, fun herr => absurd rfl herr⟩
    rw [State.readX_finish, State.readX_writeX, if_neg hr, State.readX_takeDraws]
  | wroteB rd' v k hd _ => simp [destB_eq_none_of_destX hdest] at hd
  | retried rd' rs1 k _ =>
    exact ⟨fun _ _ => rfl, fun _ => rfl, fun _ => rfl, rfl, rfl, rfl, rfl, rfl, fun herr => absurd rfl herr⟩

/-- Settles O21: the answers that can be those of a command with a B destination; the string it writes fits the array. -/
theorem frameBDestination : Obligations.FrameBDestination := by
  unfold Obligations.FrameBDestination
  intro i rd s t hl hdest h
  cases exec_inv h with
  | failed e _ =>
    exact ⟨fun _ => rfl, fun _ _ => rfl, fun _ _ => rfl, rfl, rfl, rfl, rfl, rfl, fun _ => ⟨rfl, fun _ => rfl⟩⟩
  | wroteX rd' v k hd _ => simp [destB_eq_none_of_destX hd] at hdest
  | wroteB rd' v k hd hv =>
    obtain rfl : rd' = rd := Option.some.inj (hd.symm.trans hdest)
    refine ⟨fun _ => rfl, fun a ha => ?_, fun j hj => ?_, rfl, rfl, rfl, rfl, rfl, fun herr => absurd rfl herr⟩
    · exact State.read_writeB_of_outside (s := s.takeDraws k) (hv hl) ha
    · rw [State.readLen_finish, State.readLen_writeB, if_neg hj, State.readLen_takeDraws]
  | retried rd' rs1 k hi =>
    subst hi
    cases hdest

/-- Settles O22: the failure is the only answer that changes ERR. -/
theorem failureOnlySetsErr : Obligations.FailureOnlySetsErr := by
  unfold Obligations.FailureOnlySetsErr
  intro i s t h herr
  cases exec_inv h with
  | failed e _ => exact ⟨e, rfl⟩
  | wroteX | wroteB | retried => exact absurd rfl herr

/-- Settles O23: the failure an answer raises is one of the matrix; the other answers leave ERR at 0. -/
theorem failuresListed : Obligations.FailuresListed := by
  unfold Obligations.FailuresListed
  intro i s t e h ht hs
  cases exec_inv h with
  | failed e' he' =>
    obtain rfl : e' = e := Option.some.inj ht
    exact he'
  | wroteX | wroteB | retried => exact absurd (hs.symm.trans ht) (Option.some_ne_none e).symm

end Sys2Proof.Machine
end

section
/-! PROOFS. Several host writes to a data window (20_memory.md R57). -/

namespace Sys2Proof.Machine

open Sys2Proof.Claims

/-! ### Strings put together from pieces -/

theorem getD_slice {s : List Byte} {i j b : Nat} (h : b < j - i) : (slice s i j).getD b 0 = s.getD (i + b) 0 := by
  simp only [slice, List.getD_eq_getElem?_getD, List.getElem?_take, List.getElem?_drop, if_pos h]

theorem slice_succ {s : List Byte} {b : Nat} (h : b < s.length) : slice s b (b + 1) = [s.getD b 0] := by
  rw [slice, Nat.add_sub_cancel_left, List.take_one_drop_eq_of_lt_length h, List.getD_eq_getElem _ _ h,
    List.get_eq_getElem]

theorem slice_append_slice (s : List Byte) {i j k : Nat} (hij : i ≤ j) (hjk : j ≤ k) :
    slice s i j ++ slice s j k = slice s i k := by
  have hdrop : s.drop j = (s.drop i).drop (j - i) := by rw [List.drop_drop, Nat.add_sub_cancel' hij]
  have hlen : k - i = (j - i) + (k - j) := by omega
  rw [slice, slice, slice, hdrop, hlen, List.take_add]

theorem slice_zero_length (s : List Byte) {n : Nat} (h : s.length = n) : slice s 0 n = s := by
  rw [slice, List.drop_zero, Nat.sub_zero, List.take_of_length_le h.le]

/-- A byte, as the low byte of the word a host access carries. -/
theorem i2osp_setWidth_byte (b : Byte) : i2osp (b.setWidth 32).toNat 1 = [b] := by
  have h := i2osp_os2ip [b]
  have hb := b.isLt
  rwa [show os2ip [b] = (b.setWidth 32).toNat by
    rw [BitVec.toNat_setWidth, Nat.mod_eq_of_lt (by omega)]; simp [os2ip]] at h

/-- Four bytes fit the word a host access carries. -/
theorem i2osp_ofNat_os2ip {s : List Byte} {n : Nat} (hs : s.length = n) (hn : n ≤ 4) :
    i2osp (BitVec.ofNat 32 (os2ip s)).toNat n = s := by
  have hlt := os2ip_lt s
  have hle : 256 ^ s.length ≤ 256 ^ 4 := Nat.pow_le_pow_right (by decide) (hs ▸ hn)
  rw [BitVec.toNat_ofNat, Nat.mod_eq_of_lt (by omega), ← hs, i2osp_os2ip]

section
variable {α : Type} (o n : α → Nat)

/-- Replacing pieces of `w` by the same pieces of `v` makes it `v` when every byte lies in a piece or agrees already. -/
theorem foldl_splice_slice {v : List Byte} {l : List α} (hl : ∀ p ∈ l, o p + n p ≤ v.length) {w : List Byte}
    (hw : w.length = v.length)
    (hcover : ∀ b < v.length, w.getD b 0 = v.getD b 0 ∨ ∃ p ∈ l, o p ≤ b ∧ b < o p + n p) :
    l.foldl (fun w p => splice w (o p) (slice v (o p) (o p + n p))) w = v := by
  induction l generalizing w with
  | nil =>
    rw [List.foldl_nil]
    refine List.ext_getElem hw fun b hb hb' => ?_
    have hagree := hcover b hb'
    simp only [List.not_mem_nil, false_and, exists_false, or_false] at hagree
    rwa [List.getD_eq_getElem _ _ hb, List.getD_eq_getElem _ _ hb'] at hagree
  | cons p l ih =>
    have hp := hl p (.head _)
    have hlen : (slice v (o p) (o p + n p)).length = n p := by rw [slice_length]; omega
    have hfit : o p + (slice v (o p) (o p + n p)).length ≤ w.length := by rw [hlen, hw]; exact hp
    refine ih (fun q hq => hl q (.tail _ hq)) ((splice_length hfit).trans hw) fun b hb => ?_
    rw [getD_splice hfit, hlen]
    split
    · next hin => exact .inl (by rw [getD_slice (by omega), Nat.add_sub_cancel' hin.1])
    · next hout =>
      refine (hcover b hb).imp_right fun ⟨q, hq, hqb⟩ => ?_
      rcases List.mem_cons.1 hq with rfl | hq
      · exact absurd hqb hout
      · exact ⟨q, hq, hqb⟩

end

theorem Memory.writeBytes_concat (m : Memory) (a : Nat) (v : List Byte) (b : Byte) :
    Memory.writeBytes m a (v ++ [b]) = Memory.writeBytes (Memory.writeBytes m a v) (a + v.length) [b] := by
  induction v generalizing m a with
  | nil => rfl
  | cons c v ih =>
    rw [List.cons_append, Memory.writeBytes, ih, List.length_cons, Nat.add_comm v.length, ← Nat.add_assoc]
    rfl

/-! ### Writes to the window of a register -/

@[simp] theorem State.writeX_writeX (s : State) (i : XReg) (u v : Nat) : (s.writeX i u).writeX i v = s.writeX i v := by
  simp only [State.writeX, Vector.set_set]

section
variable {s : State} (hb : s.busy = false) (i : XReg) {α : Type} {o n : α → Nat} {c : α → Word}
include hb

/-- Each write after the first finds in the register the number of a string that fits the window. -/
theorem foldl_hostWrite_xWindow_of_shown {l : List α}
    (hl : ∀ p ∈ l, (n p = 1 ∨ n p = 2 ∨ n p = 4) ∧ o p % n p = 0 ∧ o p + n p ≤ s.cfg.xBytes) {w : List Byte}
    (hw : w.length = s.cfg.xBytes) :
    l.foldl (fun t p => t.hostWrite (s.cfg.base + (0x10000 * (i.val + 1) + o p)) (n p) (c p)) (s.writeX i (os2ip w)) =
      s.writeX i (os2ip (l.foldl (fun w p => splice w (o p) (i2osp (c p).toNat (n p))) w)) := by
  induction l generalizing w with
  | nil => rfl
  | cons p l ih =>
    obtain ⟨hn, ha, hs⟩ := hl p (.head _)
    have hshown : (s.writeX i (os2ip w)).windowBytes i = w := by
      rw [State.windowBytes, State.readX_writeX, if_pos rfl, State.writeX_cfg, ← hw, i2osp_os2ip]
    have hlen : (splice w (o p) (i2osp (c p).toNat (n p))).length = s.cfg.xBytes := by
      rw [splice_length (by rw [i2osp_length, hw]; exact hs), hw]
    have hwrite := State.hostWrite_xWindow (s := s.writeX i (os2ip w)) hb hn ha i hs (c p)
    rw [State.writeX_cfg, hshown, State.writeX_writeX] at hwrite
    rw [List.foldl_cons, hwrite, ih (fun q hq => hl q (.tail _ hq)) hlen, List.foldl_cons]

/-- Writes of the pieces of `v` leave the number of `v` in the register. -/
theorem foldl_hostWrite_xWindow {v : List Byte} (hv : v.length = s.cfg.xBytes) {l : List α} (hne : l ≠ [])
    (hl : ∀ p ∈ l, (n p = 1 ∨ n p = 2 ∨ n p = 4) ∧ o p % n p = 0 ∧ o p + n p ≤ s.cfg.xBytes)
    (hc : ∀ p ∈ l, i2osp (c p).toNat (n p) = slice v (o p) (o p + n p))
    (hcover : ∀ b < s.cfg.xBytes, (s.windowBytes i).getD b 0 = v.getD b 0 ∨ ∃ p ∈ l, o p ≤ b ∧ b < o p + n p) :
    l.foldl (fun t p => t.hostWrite (s.cfg.base + (0x10000 * (i.val + 1) + o p)) (n p) (c p)) s =
      s.writeX i (os2ip v) := by
  have hsplice : l.foldl (fun w p => splice w (o p) (i2osp (c p).toNat (n p))) (s.windowBytes i) = v := by
    rw [List.foldl_ext _ _ _ fun w p hp => by rw [hc p hp]]
    exact foldl_splice_slice o n (fun p hp => hv ▸ (hl p hp).2.2) (by simp [hv]) (hv ▸ hcover)
  obtain ⟨p, l, rfl⟩ := List.exists_cons_of_ne_nil hne
  obtain ⟨hn, ha, hs⟩ := hl p (.head _)
  have hlen : (splice (s.windowBytes i) (o p) (i2osp (c p).toNat (n p))).length = s.cfg.xBytes := by
    rw [splice_length (by simpa using hs), State.windowBytes_length]
  rw [List.foldl_cons, State.hostWrite_xWindow hb hn ha i hs,
    foldl_hostWrite_xWindow_of_shown hb i (fun q hq => hl q (.tail _ hq)) hlen, ← List.foldl_cons, hsplice]

/-! ### Writes to the data array of a buffer -/

/-- Single-byte writes of a string in ascending order leave the string in the array. -/
theorem foldl_hostWrite_bWindow (j : BReg) {o : Nat} {v : List Byte} (hv : o + v.length ≤ s.cfg.bufBytes) :
    (List.range v.length).foldl
        (fun t k => t.hostWrite (s.cfg.base + (bufferBase j + (o + k))) 1 ((v.getD k 0).setWidth 32)) s =
      { s with mem := Memory.writeBytes s.mem (bufferBase j + o) v } := by
  suffices h : ∀ k ≤ v.length, (List.range k).foldl
        (fun t k => t.hostWrite (s.cfg.base + (bufferBase j + (o + k))) 1 ((v.getD k 0).setWidth 32)) s =
      { s with mem := Memory.writeBytes s.mem (bufferBase j + o) (v.take k) } by
    simpa using h v.length (Nat.le_refl _)
  intro k hk
  induction k with
  | zero => rfl
  | succ k ih =>
    have htake : v.take (k + 1) = v.take k ++ [v.getD k 0] := by
      rw [List.take_add_one, List.getD_eq_getElem _ _ hk, List.getElem?_eq_getElem hk, Option.toList_some]
    have hwrite : ∀ m, State.hostWrite { s with mem := m } (s.cfg.base + (bufferBase j + (o + k))) 1
        ((v.getD k 0).setWidth 32) =
          { s with mem := Memory.writeBytes m (bufferBase j + (o + k)) [v.getD k 0] } := by
      intro m
      rw [← i2osp_setWidth_byte]
      exact State.hostWrite_bWindow (s := { s with mem := m }) hb (.inl rfl) (Nat.mod_one _) j
        (show o + k + 1 ≤ s.cfg.bufBytes by omega) _
    rw [List.range_succ, List.foldl_append, ih (by omega), List.foldl_cons, List.foldl_nil, hwrite,
      htake, Memory.writeBytes_concat, List.length_take, Nat.min_eq_left (by omega), Nat.add_assoc]

end

/-! ### A write of several bytes is its single-byte writes -/

theorem regionAt_eq_xWindow {off o : Nat} {i : XReg} (h : regionAt off = .xWindow i o) :
    off = 0x10000 * (i.val + 1) + o := by
  unfold regionAt at h
  split_ifs at h
  simp only [Region.xWindow.injEq, Fin.ext_iff, Fin.val_ofNat] at h
  omega

theorem regionAt_eq_bWindow {off o : Nat} {j : BReg} (h : regionAt off = .bWindow j o) :
    off = bufferBase j + o := by
  unfold regionAt at h
  split_ifs at h
  simp only [Region.bWindow.injEq, Fin.ext_iff, Fin.val_ofNat] at h
  rw [bufferBase_eq]
  omega

/-- An access to a data window that R53 does not refuse is aligned and inside the window. -/
theorem not_badDataAccess_iff (off o n size : Nat) : ¬ badDataAccess off o n size ↔ off % n = 0 ∧ o + n ≤ size := by
  rw [badDataAccess, not_or, not_not, Nat.not_lt]

section
variable {s : State} (hb : s.busy = false) {o n : Nat} (hn : n = 1 ∨ n = 2 ∨ n = 4) (ha : o % n = 0)
include hb hn ha

theorem hostWrite_xWindow_eq_foldl (i : XReg) (hs : o + n ≤ s.cfg.xBytes) (v : Word) :
    s.hostWrite (s.cfg.base + (0x10000 * (i.val + 1) + o)) n v =
      (List.range n).foldl (fun t b => t.hostWrite (s.cfg.base + (0x10000 * (i.val + 1) + (o + b))) 1
        (((i2osp v.toNat n).getD b 0).setWidth 32)) s := by
  have hfit : o + (i2osp v.toNat n).length ≤ (s.windowBytes i).length := by simpa using hs
  have hlen : (splice (s.windowBytes i) o (i2osp v.toNat n)).length = s.cfg.xBytes :=
    (splice_length hfit).trans (s.windowBytes_length i)
  rw [State.hostWrite_xWindow hb hn ha i hs]
  refine (foldl_hostWrite_xWindow hb i hlen ?_ (fun b hbn => ?_) (fun b hbn => ?_) fun b hbx => ?_).symm
  · exact List.ne_nil_of_length_pos (by rw [List.length_range]; omega)
  · have := List.mem_range.1 hbn
    exact ⟨.inl rfl, Nat.mod_one _, by omega⟩
  · have := List.mem_range.1 hbn
    rw [i2osp_setWidth_byte, slice_succ (by omega), getD_splice hfit, i2osp_length, if_pos (by omega),
      Nat.add_sub_cancel_left]
  · rw [getD_splice hfit, i2osp_length]
    split
    · exact .inr ⟨b - o, List.mem_range.2 (by omega), by omega, by omega⟩
    · exact .inl rfl

theorem hostWrite_bWindow_eq_foldl (j : BReg) (hs : o + n ≤ s.cfg.bufBytes) (v : Word) :
    s.hostWrite (s.cfg.base + (bufferBase j + o)) n v =
      (List.range n).foldl (fun t b => t.hostWrite (s.cfg.base + (bufferBase j + (o + b))) 1
        (((i2osp v.toNat n).getD b 0).setWidth 32)) s := by
  have h := foldl_hostWrite_bWindow hb j (o := o) (v := i2osp v.toNat n) (by rwa [i2osp_length])
  rw [i2osp_length] at h
  rw [State.hostWrite_bWindow hb hn ha j hs, h]

end

/-- Settles O34: in a register's window the single bytes are the pieces of the spliced string; in a data array the string is
written byte by byte. -/
theorem multiByteWrite : Obligations.MultiByteWrite := by
  unfold Obligations.MultiByteWrite
  rintro s off n v hb hn - (⟨i, o, hregion, hok⟩ | ⟨j, o, hregion, hok⟩) <;>
    obtain ⟨ha, hs⟩ := (not_badDataAccess_iff ..).1 hok
  · obtain rfl := regionAt_eq_xWindow hregion
    simp only [Nat.add_assoc s.cfg.base, Nat.add_assoc (0x10000 * _)]
    exact hostWrite_xWindow_eq_foldl hb hn ((slot_add_mod _ o hn).symm.trans ha) i hs v
  · obtain rfl := regionAt_eq_bWindow hregion
    simp only [Nat.add_assoc s.cfg.base, Nat.add_assoc (bufferBase j)]
    exact hostWrite_bWindow_eq_foldl hb hn ((bufferBase_add_mod j o hn).symm.trans ha) j hs v

end Sys2Proof.Machine
end

section
/-! PROOFS. The lines of a host script (30_encoding.md R89): the loads, run from the port, and what the reading lines observe. -/

namespace Sys2Proof.Machine

/-! ### Running the writes at the port -/

/-- Two runs, one after the other. -/
theorem run_add {j : Nat} {s u : State} (h : core.run j s = .next u) (k : Nat) : core.run (j + k) s = core.run k u := by
  induction j generalizing s with
  | zero => cases h; rw [Nat.zero_add]
  | succ j ih =>
    obtain ⟨t, ht, hrun⟩ := run_succ_inv h
    rw [Nat.add_right_comm, run_succ core ht, ih hrun]

section
variable {α : Type} (a n : α → Nat) (c : α → Word)

theorem foldl_hostWrite_port (l : List α) (s : State) (p : List Event) :
    l.foldl (fun t q => t.hostWrite (a q) (n q) (c q)) { s with port := p } =
      { l.foldl (fun t q => t.hostWrite (a q) (n q) (c q)) s with port := p } := by
  induction l generalizing s with
  | nil => rfl
  | cons q l ih => rw [List.foldl_cons, State.hostWrite_port, ih, List.foldl_cons]

/-- Host writes at the port are taken in order. -/
theorem run_writes {l : List α} {s : State} {rest : List Event}
    (hp : s.port = l.map (fun q => .write (a q) (n q) (c q)) ++ rest) :
    core.run l.length s = .next { l.foldl (fun t q => t.hostWrite (a q) (n q) (c q)) s with port := rest } := by
  induction l generalizing s with
  | nil =>
    obtain rfl : s.port = rest := hp
    rfl
  | cons q l ih =>
    rw [List.length_cons, run_succ core (step_of_write hp), ih rfl, foldl_hostWrite_port, List.foldl_cons]

end

/-! ### The pieces of a register window -/

section
variable (P : Config.Params)

theorem mem_windowPieces {p : Nat × Nat} : p ∈ windowPieces P ↔
    (∃ q < P.xBytes / 4, p = (4 * q, 4)) ∨ ∃ r < P.xBytes % 4, p = (4 * (P.xBytes / 4) + r, 1) := by
  simp only [windowPieces, List.mem_append, List.mem_map, List.mem_range, eq_comm]

theorem windowPieces_ne_nil : windowPieces P ≠ [] := by
  obtain ⟨⟨hx, -⟩, -⟩ := P.valid
  exact List.ne_nil_of_mem ((mem_windowPieces P).2 (.inl ⟨0, by omega, rfl⟩))

/-- Each piece is an aligned access inside the window, no wider than a word. -/
theorem windowPieces_admitted : ∀ p ∈ windowPieces P,
    (p.2 = 1 ∨ p.2 = 2 ∨ p.2 = 4) ∧ p.1 % p.2 = 0 ∧ p.1 + p.2 ≤ P.xBytes := by
  intro p hp
  rcases (mem_windowPieces P).1 hp with ⟨q, hq, rfl⟩ | ⟨r, hr, rfl⟩
  · exact ⟨.inr (.inr rfl), Nat.mul_mod_right 4 q, by dsimp only; omega⟩
  · exact ⟨.inl rfl, Nat.mod_one _, by dsimp only; omega⟩

/-- Every byte of the window lies in a piece. -/
theorem windowPieces_cover {b : Nat} (hb : b < P.xBytes) : ∃ p ∈ windowPieces P, p.1 ≤ b ∧ b < p.1 + p.2 := by
  by_cases h : b / 4 < P.xBytes / 4
  · exact ⟨_, (mem_windowPieces P).2 (.inl ⟨b / 4, h, rfl⟩), by dsimp only; omega, by dsimp only; omega⟩
  · refine ⟨_, (mem_windowPieces P).2 (.inr ⟨b - 4 * (P.xBytes / 4), by omega, rfl⟩), ?_, ?_⟩ <;> dsimp only <;> omega

/-- Pieces of one width from `a` up, put together. -/
theorem flatMap_slice_range (v : List Byte) (a d k : Nat) :
    (List.range k).flatMap (fun q => slice v (a + d * q) (a + d * q + d)) = slice v a (a + d * k) := by
  induction k with
  | zero => simp [slice]
  | succ k ih =>
    rw [List.range_succ, List.flatMap_append, ih, List.flatMap_singleton,
      slice_append_slice v (Nat.le_add_right _ _) (Nat.le_add_right _ _), Nat.add_assoc, Nat.mul_succ]

/-- The pieces of a window's string, put together, are the string. -/
theorem flatMap_windowPieces {v : List Byte} (hv : v.length = P.xBytes) :
    (windowPieces P).flatMap (fun p => slice v p.1 (p.1 + p.2)) = v := by
  have hwords := flatMap_slice_range v 0 4 (P.xBytes / 4)
  have hbytes := flatMap_slice_range v (4 * (P.xBytes / 4)) 1 (P.xBytes % 4)
  simp only [Nat.zero_add, Nat.one_mul] at hwords hbytes
  rw [windowPieces, List.flatMap_append, List.flatMap_map, List.flatMap_map, hwords, hbytes,
    slice_append_slice v (Nat.zero_le _) (Nat.le_add_right _ _), Nat.div_add_mod, slice_zero_length v hv]

end

/-! ### Loading lines -/

theorem xAddress_add (P : Config.Params) (i : XReg) (o : Nat) :
    xAddress P i + o = P.base + (0x10000 * (i.val + 1) + o) := Nat.add_assoc _ _ _

theorem bAddress_add (P : Config.Params) (j : BReg) (o : Nat) : bAddress P j + o = P.base + (bufferBase j + o) :=
  Nat.add_assoc _ _ _

theorem lenAddress_eq (P : Config.Params) (j : BReg) : lenAddress P j = P.base + (0x000010 + 4 * j.val) :=
  Nat.add_assoc _ _ _

/-- Settles O36: the writes are the pieces of the window's string for `v`, and they cover the window. -/
theorem scriptLoadsRegister : Obligations.ScriptLoadsRegister := by
  unfold Obligations.ScriptLoadsRegister
  intro s i v rest hb hv hp
  have hlen : (i2osp v s.cfg.xBytes).length = s.cfg.xBytes := i2osp_length _ _
  have hfold := foldl_hostWrite_xWindow hb i hlen (windowPieces_ne_nil s.cfg) (windowPieces_admitted s.cfg)
    (c := fun p => BitVec.ofNat 32 (os2ip (slice (i2osp v s.cfg.xBytes) p.1 (p.1 + p.2))))
    (fun p hp => i2osp_ofNat_os2ip (by
      have := (windowPieces_admitted s.cfg p hp).2.2
      rw [slice_length, hlen]; omega) (by
      have := (windowPieces_admitted s.cfg p hp).1
      omega))
    fun b hbx => .inr (windowPieces_cover s.cfg hbx)
  rw [Nat.pow_mul] at hv
  rw [os2ip_i2osp hv] at hfold
  rw [scriptWrx, List.length_map, run_writes _ _ _ hp]
  simp only [xAddress_add]
  rw [hfold]

/-- A length that a buffer can have fits the word a host access carries. -/
theorem toNat_ofNat_of_le_bufBytes {P : Config.Params} {n : Nat} (hn : n ≤ P.bufBytes) : (BitVec.ofNat 32 n).toNat = n := by
  obtain ⟨-, ⟨-, hbuf⟩, -⟩ := P.valid
  rw [BitVec.toNat_ofNat]
  exact Nat.mod_eq_of_lt (by omega)

theorem step_of_lenWrite {s : State} {j : BReg} {n : Nat} {rest : List Event} (hb : s.busy = false)
    (hn : n ≤ s.cfg.bufBytes) (hp : s.port = .write (lenAddress s.cfg j) 4 (BitVec.ofNat 32 n) :: rest) :
    step s = .next { s.writeLen j n with port := rest } := by
  have hword := toNat_ofNat_of_le_bufBytes hn
  rw [step_of_write hp, lenAddress_eq, State.hostWrite_blen hb j (hword.trans_le hn), hword]

/-- Settles O37: single-byte writes from the start of the array, then the length. -/
theorem scriptLoadsBuffer : Obligations.ScriptLoadsBuffer := by
  unfold Obligations.ScriptLoadsBuffer
  intro s j v rest hb hv hp
  have hfold := foldl_hostWrite_bWindow hb j (o := 0) (v := v) (by omega)
  simp only [Nat.zero_add, Nat.add_zero] at hfold
  rw [scriptWrb, List.append_assoc] at hp
  have hbytes := run_writes (fun o => bAddress s.cfg j + o) (fun _ => 1) (fun o => (v.getD o 0).setWidth 32) hp
  simp only [bAddress_add] at hbytes
  rw [hfold, List.length_range] at hbytes
  refine ⟨Memory.writeBytes s.mem (bufferBase j) v, ?_, fun o ho => ?_, fun a ha => ?_⟩
  · rw [scriptWrb, List.length_append, List.length_map, List.length_range, List.length_singleton, run_add hbytes]
    exact run_succ core (step_of_lenWrite (s := { s with mem := Memory.writeBytes s.mem (bufferBase j) v, port := _ })
      hb hv rfl) 0
  · rw [Memory.read_writeBytes, if_pos ⟨Nat.le_add_right _ _, Nat.add_lt_add_left ho _⟩, Nat.add_sub_cancel_left]
  · rw [Memory.read_writeBytes, if_neg (by omega)]

/-! ### Reading lines -/

section
variable {s : State} {α : Type} (a n : α → Nat) {f : α → Word} {l : List α}

/-- `perform_reads`, with the accesses and their answers given by an index. -/
theorem perform_reads_map
    (h : ∀ (r : Word), ∀ p ∈ l, State.hostRead { s with rdata := r } (a p) (n p) = { s with rdata := f p }) :
    ∃ r, perform (l.map fun p => .read (a p) (n p)) s = .next ({ s with rdata := r }, l.map f) := by
  have hanswers : (l.map fun p => (a p, n p)).map (fun q => (s.hostRead q.1 q.2).rdata) = l.map f := by
    rw [List.map_map]
    exact List.map_congr_left fun p hp => congrArg State.rdata (h s.rdata p hp)
  obtain ⟨r, hr⟩ := perform_reads s (fun q => (s.hostRead q.1 q.2).rdata) (l.map fun p => (a p, n p)) (fun r q hq => by
    obtain ⟨p, hp, rfl⟩ := List.mem_map.1 hq
    have hanswer : (s.hostRead (a p) (n p)).rdata = f p := congrArg State.rdata (h s.rdata p hp)
    simp only [h r p hp, hanswer]) s.rdata
  rw [List.map_map, hanswers] at hr
  exact ⟨r, hr⟩

end

/-- What the reads of RDX answer is put together to the window's string. -/
theorem numberRead_pieces (P : Config.Params) {v : List Byte} (hv : v.length = P.xBytes) :
    numberRead P ((windowPieces P).map fun p => BitVec.ofNat 32 (os2ip (slice v p.1 (p.1 + p.2)))) = os2ip v := by
  have hpiece : ∀ p ∈ windowPieces P,
      i2osp (BitVec.ofNat 32 (os2ip (slice v p.1 (p.1 + p.2)))).toNat p.2 = slice v p.1 (p.1 + p.2) := by
    intro p hp
    obtain ⟨hn, -, hs⟩ := windowPieces_admitted P p hp
    exact i2osp_ofNat_os2ip (by rw [slice_length, hv]; omega) (by omega)
  have hzip := List.zip_map' (l := windowPieces P) (f := id)
    (g := fun p => BitVec.ofNat 32 (os2ip (slice v p.1 (p.1 + p.2))))
  rw [List.map_id] at hzip
  rw [numberRead, hzip, List.flatMap_map]
  exact congrArg os2ip ((List.flatMap_congr hpiece).trans (flatMap_windowPieces P hv))

theorem runLine_rdx {s : State} (hb : s.busy = false) {i : XReg} (hi : s.readX i < 2 ^ (8 * s.cfg.xBytes)) (turns : Nat) :
    ∃ r, runLine turns (.rdx i) s = .next ({ s with rdata := r }, .number (s.readX i)) := by
  have hread : ∀ (r : Word), ∀ p ∈ windowPieces s.cfg,
      State.hostRead { s with rdata := r } (xAddress s.cfg i + p.1) p.2 =
        { s with rdata := BitVec.ofNat 32 (os2ip (slice (s.windowBytes i) p.1 (p.1 + p.2))) } := by
    intro r p hp
    obtain ⟨hn, ha, hs⟩ := windowPieces_admitted s.cfg p hp
    rw [xAddress_add]
    exact State.hostRead_xWindow (s := { s with rdata := r }) hb hn ha i hs
  obtain ⟨r, hr⟩ := perform_reads_map (fun p : Nat × Nat => xAddress s.cfg i + p.1) (fun p => p.2) hread
  refine ⟨r, ?_⟩
  rw [Nat.pow_mul] at hi
  rw [runLine, scriptRdx, hr, andThen_next, numberRead_pieces s.cfg (s.windowBytes_length i), State.windowBytes,
    os2ip_i2osp hi]

/-- The bytes of a data array, read one after the other. -/
theorem perform_scriptRdbBytes {s : State} (hb : s.busy = false) {j : BReg} {len : Nat} (hlen : len ≤ s.cfg.bufBytes)
    (v : Word) : ∃ r, perform (scriptRdbBytes s.cfg j len) { s with rdata := v } =
      .next ({ s with rdata := r }, (List.range len).map fun o => (s.readData j o).setWidth 32) := by
  refine perform_reads_map (s := { s with rdata := v }) (fun o => bAddress s.cfg j + o) (fun _ => 1) fun r o ho => ?_
  have hlt := List.mem_range.1 ho
  have hone : os2ip (Memory.readBytes s.mem (bufferBase j + o) 1) = (s.readData j o).toNat := by
    simp [Memory.readBytes, State.readData, os2ip]
  rw [bAddress_add, State.hostRead_bWindow (s := { s with rdata := r }) hb (.inl rfl) (Nat.mod_one _) j
    (show o + 1 ≤ s.cfg.bufBytes by omega), hone, BitVec.ofNat_toNat]

theorem stringRead_readData (s : State) (j : BReg) :
    stringRead ((List.range (s.readLen j)).map fun o => (s.readData j o).setWidth 32) = s.readB j := by
  have hbyte : ∀ b : Byte, (b.setWidth 32).setWidth 8 = b := by
    intro b
    rw [BitVec.setWidth_setWidth_of_le _ (by decide), BitVec.setWidth_eq]
  simp only [stringRead, List.map_map, Function.comp_def, hbyte]
  rfl

theorem runLine_rdb {s : State} (hb : s.busy = false) {j : BReg} (hj : s.readLen j ≤ s.cfg.bufBytes) (turns : Nat) :
    ∃ r, runLine turns (.rdb j) s = .next ({ s with rdata := r }, .string (s.readB j)) := by
  have hlength : perform (scriptRdbLength s.cfg j) s =
      .next ({ s with rdata := BitVec.ofNat 32 (s.readLen j) }, [BitVec.ofNat 32 (s.readLen j)]) := by
    rw [scriptRdbLength, perform_read, lenAddress_eq, State.hostRead_blen hb j]
    rfl
  obtain ⟨r, hr⟩ := perform_scriptRdbBytes hb hj (BitVec.ofNat 32 (s.readLen j))
  refine ⟨r, ?_⟩
  rw [runLine, hlength, andThen_next]
  dsimp only
  rw [toNat_ofNat_of_le_bufBytes hj, hr, andThen_next, stringRead_readData]

/-- Bits 15:8 of the status are the failure code (R28). -/
theorem errField_statusWord (s : State) : errField s.statusWord = errCode s.err := by
  refine BitVec.eq_of_getLsbD_eq fun b hb => ?_
  rw [errField, BitVec.getLsbD_extractLsb', statusBits s (8 + b), if_neg (by omega), if_neg (by omega),
    if_pos (by omega), Nat.add_sub_cancel_left]
  simp [hb]

theorem runLine_err (s : State) (turns : Nat) :
    runLine turns .err s = .next ({ s with rdata := s.statusWord }, .code (errCode s.err)) := by
  rw [runLine, scriptErr, perform_read, State.hostRead_status, ← errField_statusWord s]
  rfl

theorem runLine_ack (s : State) (turns : Nat) :
    runLine turns .ack s = .next ({ s with err := none, herr := false }, .nothing) := by
  rw [runLine, scriptAck, perform_write, (controlWrite s 0x00000003).2]
  rfl

theorem await_of_idle {s : State} (hb : s.busy = false) (turns : Nat) :
    await turns s = .next ({ s with rdata := s.statusWord }, .status s.statusWord) := by
  rw [await_idle turns hb, State.hostRead_status]

/-- Settles O60: one lemma for each line; WAIT with BUSY = 1 is a turn of the engine and then WAIT on an idle engine. -/
theorem scriptObserves : Obligations.ScriptObserves := by
  unfold Obligations.ScriptObserves
  refine fun s turns => ⟨fun i hb hi => runLine_rdx hb hi turns, fun j hb hj => runLine_rdb hb hj turns,
    runLine_err s turns, runLine_ack s turns, fun hb => await_of_idle hb turns, fun i u hb hd hexec hu => ?_⟩
  rw [runLine, await_busy turns hb, engineTurn_of_pending (s := { s with port := .wait :: s.port }) hb hd, hexec,
    andThen_next]
  exact await_of_idle (s := { u with port := s.port }) hu turns

end Sys2Proof.Machine
end

section
/-! PROOFS. The primality tester (41_primality.md): ISPRIME (R120 to R124), GENPRIME (R125 to R128). -/

namespace Sys2Proof.Machine

open Sys2Proof.Claims

/-! ### Trial division -/

theorem mem_smallPrimes_iff (p : Nat) : p ∈ smallPrimes ↔ smallPrime p := by
  have hlist : ∀ q ≤ 37, q ∈ smallPrimes ↔ q.Prime := by decide
  have hbound : ∀ q ∈ smallPrimes, q ≤ 37 := by decide
  exact ⟨fun h => ⟨(hlist p (hbound p h)).1 h, hbound p h⟩, fun ⟨hp, hle⟩ => (hlist p hle).2 hp⟩

theorem trialDivision_of_not_dvd {n : Nat} {ps : List Nat} (h : ∀ p ∈ ps, ¬ p ∣ n) : trialDivision n ps = none := by
  induction ps with
  | nil => rfl
  | cons p ps ih =>
    have hp := h p (.head _)
    rw [trialDivision, if_neg fun hn : n = p => hp (hn ▸ dvd_rfl),
      if_neg (mt Nat.dvd_of_mod_eq_zero hp), ih fun q hq => h q (.tail _ hq)]

/-- Of listed primes that divide `n`, any one decides: the first found is it, or neither is `n`. -/
theorem trialDivision_of_dvd {n p : Nat} {ps : List Nat} (hps : ∀ q ∈ ps, q.Prime) (hp : p ∈ ps) (hdvd : p ∣ n) :
    trialDivision n ps = some (decide (n = p)) := by
  induction ps with
  | nil => cases hp
  | cons q ps ih =>
    have hq := hps q (.head _)
    have hprime := hps p hp
    rw [trialDivision]
    split
    · next h =>
      have hpq : p = q := (Nat.prime_dvd_prime_iff_eq hprime hq).1 (h ▸ hdvd)
      rw [decide_eq_true (h.trans hpq.symm)]
    · next hne =>
      split
      · next h =>
        have hnp : n ≠ p := by
          rintro rfl
          exact hne ((Nat.prime_dvd_prime_iff_eq hq hprime).1 (Nat.dvd_of_mod_eq_zero h)).symm
        rw [decide_eq_false hnp]
      · next h =>
        have hpq : p ≠ q := by
          rintro rfl
          exact h (Nat.mod_eq_zero_of_dvd hdvd)
        exact ih (fun r hr => hps r (.tail _ hr)) ((List.mem_cons.1 hp).resolve_left hpq)

/-! ### The odd part -/

/-- Each halving moves a factor 2 from `d` to the power. -/
theorem halvings_spec {fuel s d : Nat} (hd : 0 < d) (hfuel : d < 2 ^ fuel) :
    2 ^ s * d = 2 ^ (halvings fuel s d).1 * (halvings fuel s d).2 ∧ (halvings fuel s d).2 % 2 = 1 := by
  induction fuel generalizing s d with
  | zero => omega
  | succ fuel ih =>
    rw [halvings]
    split
    · next h =>
      have hhalf : 2 ^ s * d = 2 ^ (s + 1) * (d / 2) := by
        rw [Nat.pow_succ, Nat.mul_assoc, Nat.mul_div_cancel' (Nat.dvd_of_mod_eq_zero h)]
      rw [hhalf]
      exact ih (by omega) (by omega)
    · next h => exact ⟨rfl, by omega⟩

theorem oddPart_spec {m : Nat} (hm : 0 < m) : m = 2 ^ (oddPart m).1 * (oddPart m).2 ∧ (oddPart m).2 % 2 = 1 := by
  have h := halvings_spec (s := 0) hm ((bitLength_le_iff m _).1 (Nat.le_refl _))
  rwa [Nat.pow_zero, Nat.one_mul] at h

/-- The power of two and the odd factor of a product are determined by it. -/
theorem two_pow_mul_odd_unique {s d t e : Nat} (hd : d % 2 = 1) (he : e % 2 = 1) (h : 2 ^ s * d = 2 ^ t * e) :
    s = t ∧ d = e := by
  induction s generalizing t with
  | zero =>
    cases t with
    | zero => simpa using h
    | succ t =>
      rw [Nat.pow_succ', Nat.mul_assoc] at h
      omega
  | succ s ih =>
    cases t with
    | zero =>
      rw [Nat.pow_succ', Nat.mul_assoc] at h
      omega
    | succ t =>
      simp only [Nat.pow_succ', Nat.mul_assoc] at h
      obtain ⟨hst, hde⟩ := ih (t := t) (by omega)
      exact ⟨congrArg _ hst, hde⟩

/-! ### Miller-Rabin rounds -/

theorem squareChain_iff {n c x : Nat} : squareChain n c x = true ↔ ∃ j < c, x ^ 2 ^ (j + 1) % n = n - 1 := by
  induction c generalizing x with
  | zero => simp [squareChain]
  | succ c ih =>
    have hsquare : ∀ j, (x * x % n) ^ 2 ^ (j + 1) % n = x ^ 2 ^ (j + 1 + 1) % n := by
      intro j
      rw [← Nat.pow_mod, ← Nat.pow_two, ← Nat.pow_mul, ← Nat.pow_succ']
    have hfirst : x * x % n = x ^ 2 ^ (0 + 1) % n := by rw [Nat.zero_add, Nat.pow_one, Nat.pow_two]
    rw [squareChain, Nat.exists_lt_succ_left, ← hfirst]
    split
    · next h => exact iff_of_true rfl (.inl h)
    · next h =>
      rw [ih, or_iff_right h]
      simp only [hsquare]

/-- The round of R122 as the model runs it, on the decomposition of an even `n - 1`. -/
theorem millerRabinRound_iff_exists {n s d a : Nat} (hn : 0 < n) (hs : 0 < s) :
    millerRabinRound n s d a = true ↔ a ^ d % n = 1 ∨ ∃ j < s, a ^ (2 ^ j * d) % n = n - 1 := by
  obtain ⟨c, rfl⟩ := Nat.exists_eq_succ_of_ne_zero hs.ne'
  have hchain : squareChain n c (a ^ d % n) = true ↔ ∃ j < c, a ^ (2 ^ (j + 1) * d) % n = n - 1 := by
    simp only [squareChain_iff, ← Nat.pow_mod, ← Nat.pow_mul, Nat.mul_comm d]
  have hfirst : a ^ (2 ^ 0 * d) % n = a ^ d % n := by rw [Nat.pow_zero, Nat.one_mul]
  rw [millerRabinRound, modPower_eq a d hn, Nat.exists_lt_succ_left, hfirst, ← hchain]
  dsimp only [Nat.succ_sub_one]
  split
  · next h => exact iff_of_true rfl (h.imp_right .inl)
  · next h =>
    obtain ⟨h1, h2⟩ := not_or.1 h
    rw [or_iff_right h1, or_iff_right h2]

theorem millerRabinRound_iff {n : Nat} (hn : 2 ≤ n) (hodd : n % 2 = 1) (a : Nat) :
    millerRabinRound n (oddPart (n - 1)).1 (oddPart (n - 1)).2 a = true ↔ passesRound n a := by
  obtain ⟨hprod, hd⟩ := oddPart_spec (m := n - 1) (by omega)
  have hs : 0 < (oddPart (n - 1)).1 := by
    refine Nat.pos_of_ne_zero fun h => ?_
    rw [h, Nat.pow_zero, Nat.one_mul] at hprod
    omega
  rw [millerRabinRound_iff_exists (by omega) hs]
  constructor
  · exact fun h => ⟨_, _, hprod, hd, h⟩
  · rintro ⟨s, d, hprod', hd', h⟩
    obtain ⟨rfl, rfl⟩ := two_pow_mul_odd_unique hd hd' (hprod.symm.trans hprod')
    exact h

section
variable {src : Nat → Nat} {n s d rounds k : Nat}

theorem millerRabinRounds_of_all
    (h : ∀ j < rounds, millerRabinRound n s d (randRange (src (k + j)) 2 (n - 2)) = true) :
    millerRabinRounds src n s d rounds k = (true, k + rounds) := by
  induction rounds generalizing k with
  | zero => rfl
  | succ rounds ih =>
    have hfirst := h 0 (Nat.succ_pos _)
    rw [Nat.add_zero] at hfirst
    rw [millerRabinRounds, if_pos hfirst, ih, Nat.add_right_comm, Nat.add_assoc]
    intro j hj
    rw [Nat.add_right_comm, Nat.add_assoc]
    exact h (j + 1) (by omega)

theorem millerRabinRounds_of_first {j : Nat} (hj : j < rounds)
    (hpass : ∀ i < j, millerRabinRound n s d (randRange (src (k + i)) 2 (n - 2)) = true)
    (hfail : ¬ millerRabinRound n s d (randRange (src (k + j)) 2 (n - 2)) = true) :
    millerRabinRounds src n s d rounds k = (false, k + j + 1) := by
  induction rounds generalizing k j with
  | zero => omega
  | succ rounds ih =>
    rw [millerRabinRounds]
    cases j with
    | zero =>
      rw [Nat.add_zero] at hfail ⊢
      rw [if_neg hfail]
    | succ j =>
      have hshift : ∀ i, k + 1 + i = k + (i + 1) := fun i => by omega
      have hfirst := hpass 0 (Nat.succ_pos _)
      rw [Nat.add_zero] at hfirst
      rw [if_pos hfirst, ih (j := j) (by omega), hshift, Nat.add_assoc]
      · intro i hi
        rw [hshift]
        exact hpass (i + 1) (by omega)
      · rw [hshift]
        exact hfail

end

/-! ### The test -/

section
variable {n : Nat}

theorem isProbablePrime_of_lt (h : n < 2) (src : Nat → Nat) (rounds k : Nat) :
    isProbablePrime src n rounds k = (false, k) := if_pos h

/-- A prime up to 37 that divides `n` decides the test without a draw (R121). -/
theorem isProbablePrime_of_dvd (hn : 2 ≤ n) {p : Nat} (hp : smallPrime p) (hdvd : p ∣ n) (src : Nat → Nat)
    (rounds k : Nat) : isProbablePrime src n rounds k = (decide (n = p), k) := by
  rw [isProbablePrime, if_neg (Nat.not_lt.2 hn),
    trialDivision_of_dvd (fun q hq => ((mem_smallPrimes_iff q).1 hq).1) ((mem_smallPrimes_iff p).2 hp) hdvd]

variable (hn : 2 ≤ n) (hsmall : ∀ p, smallPrime p → ¬ p ∣ n)
include hn hsmall

/-- A number that trial division does not decide goes through the rounds. -/
theorem isProbablePrime_eq_rounds (src : Nat → Nat) (rounds k : Nat) :
    isProbablePrime src n rounds k =
      millerRabinRounds src n (oddPart (n - 1)).1 (oddPart (n - 1)).2 rounds k := by
  rw [isProbablePrime, if_neg (Nat.not_lt.2 hn),
    trialDivision_of_not_dvd fun p hp => hsmall p ((mem_smallPrimes_iff p).1 hp)]

omit hn in
theorem odd_of_no_smallPrime : n % 2 = 1 := by
  have h := hsmall 2 ⟨Nat.prime_two, by decide⟩
  omega

variable {src : Nat → Nat} {rounds k : Nat}

theorem isProbablePrime_accepts (h : ∀ j < rounds, passesRound n (randRange (src (k + j)) 2 (n - 2))) :
    isProbablePrime src n rounds k = (true, k + rounds) := by
  have hodd := odd_of_no_smallPrime hsmall
  rw [isProbablePrime_eq_rounds hn hsmall]
  exact millerRabinRounds_of_all fun j hj => (millerRabinRound_iff hn hodd _).2 (h j hj)

theorem isProbablePrime_rejects {j : Nat} (hj : j < rounds)
    (hpass : ∀ i < j, passesRound n (randRange (src (k + i)) 2 (n - 2)))
    (hfail : ¬ passesRound n (randRange (src (k + j)) 2 (n - 2))) :
    isProbablePrime src n rounds k = (false, k + j + 1) := by
  have hodd := odd_of_no_smallPrime hsmall
  rw [isProbablePrime_eq_rounds hn hsmall]
  exact millerRabinRounds_of_first hj (fun i hi => (millerRabinRound_iff hn hodd _).2 (hpass i hi))
    (mt (millerRabinRound_iff hn hodd _).1 hfail)

end

/-! ### Primes pass every round -/

/-- Modulo a prime the square roots of 1 are 1 and -1. -/
theorem sq_mod_prime_eq_one {n y : Nat} (hn : n.Prime) (h : y ^ 2 % n = 1) : y % n = 1 ∨ y % n = n - 1 := by
  have hn2 := hn.two_le
  have hlt := Nat.mod_lt y hn.pos
  rw [Nat.pow_mod] at h
  generalize y % n = r at h hlt ⊢
  have hr : 0 < r := by
    refine Nat.pos_of_ne_zero fun h0 => ?_
    simp [h0] at h
  have hdvd : n ∣ (r + 1) * (r - 1) := by
    have hmod : 1 ≡ r ^ 2 [MOD n] := (Nat.mod_eq_of_lt hn2).trans h.symm
    have hsub := (Nat.modEq_iff_dvd' (Nat.one_le_pow 2 r hr)).1 hmod
    rwa [← Nat.sq_sub_sq, Nat.one_pow]
  rcases hn.dvd_mul.1 hdvd with hplus | hminus
  · have := Nat.le_of_dvd (by omega) hplus
    omega
  · have := Nat.eq_zero_of_dvd_of_lt hminus (by omega)
    omega

/-- From the last power down, the first that is not 1 is a square root of 1. -/
theorem one_or_minus_one_of_pow {n a d s : Nat} (hn : n.Prime) (h : a ^ (2 ^ s * d) % n = 1) :
    a ^ d % n = 1 ∨ ∃ j < s, a ^ (2 ^ j * d) % n = n - 1 := by
  induction s with
  | zero => exact .inl (by simpa using h)
  | succ s ih =>
    have hsq : (a ^ (2 ^ s * d)) ^ 2 % n = 1 := by rwa [← Nat.pow_mul, Nat.mul_right_comm, ← Nat.pow_succ]
    rcases sq_mod_prime_eq_one hn hsq with h1 | h1
    · exact (ih h1).imp_right fun ⟨j, hj, hja⟩ => ⟨j, by omega, hja⟩
    · exact .inr ⟨s, Nat.lt_succ_self s, h1⟩

theorem passesRound_of_prime {n a : Nat} (hn : n.Prime) (ha : 0 < a) (han : a < n) : passesRound n a := by
  have hn2 := hn.two_le
  obtain ⟨hprod, hd⟩ := oddPart_spec (m := n - 1) (by omega)
  have hcop : Nat.Coprime a n := ((hn.coprime_iff_not_dvd).2 (Nat.not_dvd_of_pos_of_lt ha han)).symm
  have hfermat : a ^ (n - 1) % n = 1 := by
    have h := Nat.ModEq.pow_totient hcop
    rw [Nat.totient_prime hn] at h
    exact Eq.trans h (Nat.mod_eq_of_lt (by omega))
  rw [hprod] at hfermat
  exact ⟨_, _, hprod, hd, one_or_minus_one_of_pow hn hfermat⟩

theorem not_dvd_prime_of_gt {n : Nat} (hn : n.Prime) (hlarge : 37 < n) : ∀ p, smallPrime p → ¬ p ∣ n := by
  rintro p ⟨hp, hle⟩ hdvd
  have := (Nat.prime_dvd_prime_iff_eq hp hn).1 hdvd
  omega

/-- A prime above 37 passes each of its rounds, whatever is drawn. -/
theorem isProbablePrime_of_prime {n : Nat} (hn : n.Prime) (hlarge : 37 < n) (src : Nat → Nat) (rounds k : Nat) :
    isProbablePrime src n rounds k = (true, k + rounds) := by
  refine isProbablePrime_accepts hn.two_le (not_dvd_prime_of_gt hn hlarge) fun j _ => ?_
  have hrange := randRange_mem (r := src (k + j)) (show 2 ≤ n - 2 by omega)
  exact passesRound_of_prime hn (by omega) (by omega)

/-! ### ISPRIME -/

theorem exec_isprime {rs1 rs2 : XReg} {s : State} {b : Bool} {k : Nat}
    (h : isProbablePrime s.upcoming (s.readX rs1) (s.readX rs2) 0 = (b, k)) (rd : XReg) :
    exec (.isprime rd rs1 rs2) s = .next (doneX s rd b.toNat k) := by
  rw [exec, execIsprime, h, completeX_ok, doneX]

/-- Settles O42: below 2 the test ends at once; otherwise the prime decides the trial division. -/
theorem isprimeTrialDivision : Obligations.IsprimeTrialDivision := by
  unfold Obligations.IsprimeTrialDivision
  refine fun rd rs1 rs2 s => ⟨fun h => ?_, fun h => ?_, fun hn p hp hdvd hne => ?_⟩
  · exact exec_isprime (isProbablePrime_of_lt h _ _ _) rd
  · have htest := isProbablePrime_of_dvd h.1.two_le h dvd_rfl s.upcoming (s.readX rs2) 0
    rw [decide_eq_true rfl] at htest
    exact exec_isprime htest rd
  · have htest := isProbablePrime_of_dvd hn hp hdvd s.upcoming (s.readX rs2) 0
    rw [decide_eq_false hne] at htest
    exact exec_isprime htest rd

/-- Settles O43: the rounds as the model runs them are those of R122. -/
theorem isprimeRounds : Obligations.IsprimeRounds := by
  unfold Obligations.IsprimeRounds
  refine fun rd rs1 rs2 s hn hsmall => ⟨fun hall => ?_, fun j hj hpass hfail => ?_⟩
  · have htest := isProbablePrime_accepts (src := s.upcoming) (rounds := s.readX rs2) (k := 0) hn hsmall
      fun j hj => by rw [Nat.zero_add]; exact hall j hj
    rw [Nat.zero_add] at htest
    exact exec_isprime htest rd
  · have htest := isProbablePrime_rejects (src := s.upcoming) (k := 0) hn hsmall hj
      (fun i hi => by rw [Nat.zero_add]; exact hpass i hi) (by rw [Nat.zero_add]; exact hfail)
    rw [Nat.zero_add] at htest
    exact exec_isprime htest rd

/-- Settles O44: up to 37 by trial division, above by Fermat's theorem and the square roots of 1 modulo a prime. -/
theorem isprimeAcceptsPrimes : Obligations.IsprimeAcceptsPrimes := by
  unfold Obligations.IsprimeAcceptsPrimes
  intro rd rs1 rs2 s hprime
  rcases Nat.lt_or_ge 37 (s.readX rs1) with hlarge | hle
  · have htest := isProbablePrime_of_prime hprime hlarge s.upcoming (s.readX rs2) 0
    rw [Nat.zero_add] at htest
    exact ⟨s.readX rs2, Nat.le_refl _, exec_isprime htest rd⟩
  · exact ⟨0, Nat.zero_le _, (isprimeTrialDivision rd rs1 rs2 s).2.1 ⟨hprime, hle⟩⟩

/-! ### GENPRIME -/

theorem candidate_odd (bits c : Nat) : candidate bits c % 2 = 1 := by
  rw [candidate, Nat.or_mod_two_eq_one]
  exact .inr rfl

theorem two_pow_le_candidate (bits c : Nat) : 2 ^ (bits - 1) ≤ candidate bits c :=
  Nat.le_trans Nat.right_le_or Nat.left_le_or

theorem firstCandidate_lt (s : State) {bits : Nat} (hbits : 16 ≤ bits) : firstCandidate s bits < 2 ^ bits := by
  have hpos := Nat.two_pow_pos bits
  have hrange := (randRange_mem (r := s.upcoming 0) (Nat.zero_le (2 ^ bits - 1))).2
  exact candidate_lt (by omega) (by omega)

/-- No candidate is as small as a listed prime. -/
theorem lt_firstCandidate (s : State) {bits : Nat} (hbits : 16 ≤ bits) : 37 < firstCandidate s bits := by
  have hpow : 2 ^ 15 ≤ 2 ^ (bits - 1) := Nat.pow_le_pow_right (by decide) (by omega)
  have hle : 2 ^ (bits - 1) ≤ firstCandidate s bits := two_pow_le_candidate bits _
  omega

section
variable {rs1 : XReg} {s : State}

theorem exec_genprime_of_lt (h : s.readX rs1 < 16) (rd : XReg) :
    exec (.genprime rd rs1) s = .next (s.raise .badParameter) := by
  rw [exec, execGenprime]
  exact if_pos h

theorem exec_genprime_of_gt (h : 8 * s.cfg.xBytes < s.readX rs1) (rd : XReg) :
    exec (.genprime rd rs1) s = .next (s.raise .rangeError) := by
  obtain ⟨⟨hx, -⟩, -⟩ := s.cfg.valid
  have hmin : ¬ s.readX rs1 < minPrimeBits := by rw [minPrimeBits]; omega
  rw [exec, execGenprime]
  exact (if_neg hmin).trans (if_pos h)

variable (hlo : 16 ≤ s.readX rs1) (hhi : s.readX rs1 ≤ 8 * s.cfg.xBytes)
include hlo hhi

/-- In range the test of the first candidate decides between completion and retry (R125). -/
theorem exec_genprime {b : Bool} {k : Nat}
    (h : isProbablePrime s.upcoming (firstCandidate s (s.readX rs1)) 40 1 = (b, k)) (rd : XReg) :
    exec (.genprime rd rs1) s =
      if b then .next (doneX s rd (firstCandidate s (s.readX rs1)) k) else .next (s.takeDraws k) := by
  have hmin : ¬ s.readX rs1 < minPrimeBits := Nat.not_lt.2 hlo
  rw [firstCandidate, ← candidate] at h
  rw [exec, execGenprime]
  dsimp only
  rw [if_neg hmin, if_neg (Nat.not_lt.2 hhi), defaultRounds, h]
  rfl

end

/-- Settles O45: a prime passes its rounds, and so does what passes each of the forty. -/
theorem genprimeCompletes : Obligations.GenprimeCompletes := by
  unfold Obligations.GenprimeCompletes
  refine fun rd rs1 s hlo hhi => ⟨fun hprime => ?_, fun hsmall hall => ?_⟩
  · exact exec_genprime hlo hhi (isProbablePrime_of_prime hprime (lt_firstCandidate s hlo) _ 40 1) rd
  · have hlarge := lt_firstCandidate s hlo
    exact exec_genprime hlo hhi (isProbablePrime_accepts (by omega) hsmall hall) rd

/-- Settles O46: a candidate is above every prime that trial division uses, so it is never one of them. -/
theorem genprimeRetries : Obligations.GenprimeRetries := by
  unfold Obligations.GenprimeRetries
  intro rd rs1 s hlo hhi
  have hlarge := lt_firstCandidate s hlo
  refine ⟨fun p hp hdvd => ?_, fun hsmall j hj hpass hfail => ?_⟩
  · have htest := isProbablePrime_of_dvd (by omega) hp hdvd s.upcoming 40 1
    rw [decide_eq_false fun h => by have := hp.2; omega] at htest
    exact exec_genprime hlo hhi htest rd
  · have htest := isProbablePrime_rejects (by omega) hsmall hj hpass hfail
    rw [Nat.add_comm 1 j] at htest
    exact exec_genprime hlo hhi htest rd

/-- Settles O48: the two checks, of which the second implies that the first passes. -/
theorem genprimeFails : Obligations.GenprimeFails := by
  unfold Obligations.GenprimeFails
  exact fun rd rs1 s => ⟨fun h => exec_genprime_of_lt h rd, fun h => exec_genprime_of_gt h rd⟩

/-- Settles O47: a failure leaves ERR set and a retry leaves BUSY set; otherwise the result is the candidate. -/
theorem genprimeShape : Obligations.GenprimeShape := by
  unfold Obligations.GenprimeShape
  intro rd rs1 s t hbusy herr h hdone hclean
  rcases Nat.lt_or_ge (s.readX rs1) 16 with hlo | hlo
  · rw [exec_genprime_of_lt hlo] at h
    cases h
    cases hclean
  rcases Nat.lt_or_ge (8 * s.cfg.xBytes) (s.readX rs1) with hhi | hhi
  · rw [exec_genprime_of_gt hhi] at h
    cases h
    cases hclean
  rw [exec_genprime hlo hhi Prod.mk.eta.symm] at h
  split at h
  · cases h
    rw [doneX, State.readX_finish, State.readX_writeX, if_pos rfl]
    exact ⟨candidate_odd _ _, two_pow_le_candidate _ _, firstCandidate_lt s hlo⟩
  · cases h
    rw [State.takeDraws_busy, hbusy] at hdone
    cases hdone

end Sys2Proof.Machine
end

section
/-! PROOFS. The masks MGF1 (42_padding.md R140, R141) and the OAEP padding (R150 to R158). -/

namespace Sys2Proof.Machine

open Sys2Proof.Claims

/-! ### Masks -/

/-- Byte `i` of every mask of a seed (R140). -/
def maskByte (P : Config.Params) (seed : List Byte) (i : Nat) : Byte :=
  (Config.hash P (seed ++ i2osp (i / P.hLen) 4)).getD (i % P.hLen) 0

theorem hLen_pos (P : Config.Params) : 0 < P.hLen := P.valid.2.2.1.1

/-- Block `c` of the mask is the hash with counter `c`. -/
theorem getD_hash_eq_maskByte (P : Config.Params) (seed : List Byte) (c : Nat) {o : Nat} (ho : o < P.hLen) :
    (Config.hash P (seed ++ i2osp c 4)).getD o 0 = maskByte P seed (c * P.hLen + o) := by
  have hdiv : (c * P.hLen + o) / P.hLen = c := by
    rw [Nat.mul_comm, Nat.mul_add_div (hLen_pos P), Nat.div_eq_of_lt ho, Nat.add_zero]
  have hmod : (c * P.hLen + o) % P.hLen = o := by
    rw [Nat.mul_comm, Nat.mul_add_mod, Nat.mod_eq_of_lt ho]
  rw [maskByte, hdiv, hmod]

/-- The loop of R140 appends whole blocks: with `c` blocks in `t` it goes on with block `c`. -/
theorem getD_maskLoop (P : Config.Params) (seed : List Byte) (maskLen fuel : Nat) {t : List Byte} {c : Nat}
    (ht : t.length = c * P.hLen) (hbytes : ∀ i < t.length, t.getD i 0 = maskByte P seed i) :
    ∀ i < (maskLoop (Config.hash P) seed maskLen fuel t c).length,
      (maskLoop (Config.hash P) seed maskLen fuel t c).getD i 0 = maskByte P seed i := by
  induction fuel generalizing t c with
  | zero => exact hbytes
  | succ fuel ih =>
    rw [maskLoop]
    split
    · refine ih (by rw [List.length_append, hash_length, ht, Nat.add_mul, Nat.one_mul]) fun i hi => ?_
      rw [List.length_append, hash_length] at hi
      rcases Nat.lt_or_ge i t.length with hold | hnew
      · rw [List.getD_append _ _ _ _ hold, hbytes i hold]
      · rw [List.getD_append_right _ _ _ _ hnew, getD_hash_eq_maskByte P seed c (by omega), ← ht,
          Nat.add_sub_cancel' hnew]
    · exact hbytes

theorem getD_mgf1 (P : Config.Params) (seed : List Byte) {n i : Nat} (hi : i < n) :
    (mgf1 (Config.hash P) seed n).getD i 0 = maskByte P seed i := by
  have hlen := maskLoop_length (hash_pos P) seed n n [] 0 (by simp)
  have hbyte := getD_maskLoop P seed n n (t := []) (c := 0) (by simp) (fun i hi => absurd hi (Nat.not_lt_zero i)) i
    (by omega)
  rw [mgf1, List.getD_eq_getElem?_getD, List.getElem?_take_of_lt hi, ← List.getD_eq_getElem?_getD, hbyte]

/-- Settles O50: a byte of a mask does not depend on the mask's length. -/
theorem maskTruncates : Obligations.MaskTruncates := by
  unfold Obligations.MaskTruncates
  intro P seed a b hab
  refine List.ext_getElem (by simp [hab]) fun i hi hi' => ?_
  have hia : i < a := by rwa [mgf1_length] at hi
  rw [List.getElem_take, ← List.getD_eq_getElem _ 0, ← List.getD_eq_getElem _ 0, getD_mgf1 P seed hia,
    getD_mgf1 P seed (by omega)]

/-- Settles O49: the result is the mask, byte by byte. -/
theorem maskCompletes : Obligations.MaskCompletes := by
  unfold Obligations.MaskCompletes
  refine fun rd rs1 rs2 s => ⟨fun h => ?_, fun h => ?_⟩
  · refine ⟨mgf1 (Config.hash s.cfg) (s.readB rs1) (s.readX rs2), ?_, mgf1_length _ _ _,
      fun i hi => getD_mgf1 s.cfg (s.readB rs1) hi⟩
    rw [exec, execMgf1, if_neg (Nat.not_lt.2 h), completeB_ok, doneB]
  · rw [exec, execMgf1, if_pos h, completeB_error]

/-! ### Masking and taking apart -/

/-- What a mask of the same length makes of `s` is `t` exactly when it makes `s` of `t`. -/
theorem xorBytes_eq_iff {s t mask : List Byte} (hs : s.length = mask.length) (ht : t.length = mask.length) :
    xorBytes s mask = t ↔ s = xorBytes t mask := by
  constructor
  · rintro rfl
    exact (xorBytes_cancel hs).symm
  · rintro rfl
    exact xorBytes_cancel ht

/-- A string of three parts of given lengths. -/
theorem eq_append_append_iff {s a b c : List Byte} {i j n : Nat} (hs : s.length = n) (ha : a.length = i)
    (hb : i + b.length = j) (hc : j + c.length = n) :
    s = a ++ b ++ c ↔ slice s 0 i = a ∧ slice s i j = b ∧ slice s j n = c := by
  have hparts : s = slice s 0 i ++ slice s i j ++ slice s j n := by
    rw [slice_append_slice s (Nat.zero_le i) (by omega), slice_append_slice s (Nat.zero_le j) (by omega),
      slice_zero_length s hs]
  constructor
  · intro h
    rw [hparts, List.append_assoc, List.append_assoc] at h
    obtain ⟨h1, h2⟩ := List.append_inj h (by rw [slice_length]; omega)
    obtain ⟨h3, h4⟩ := List.append_inj h2 (by rw [slice_length]; omega)
    exact ⟨h1, h3, h4⟩
  · rintro ⟨h1, h2, h3⟩
    rw [hparts, h1, h2, h3]

theorem slice_to_end {s : List Byte} {n : Nat} (h : s.length = n) (i : Nat) : slice s i n = s.drop i := by
  rw [slice, List.take_of_length_le (by rw [List.length_drop, h])]

/-! ### The separator -/

theorem messageAfterSeparator_zeros (z : Nat) (m : List Byte) : messageAfterSeparator (zeros z ++ [0x01] ++ m) = some m := by
  have hdrop : (zeros z ++ [0x01] ++ m).dropWhile (· == 0x00) = 0x01 :: m := by
    induction z with
    | zero => rfl
    | succ z ih => exact ih
  rw [messageAfterSeparator, hdrop]
  rfl

/-- The scan of R155 finds `m` exactly behind zeros and one byte 0x01. -/
theorem messageAfterSeparator_iff {rest m : List Byte} :
    messageAfterSeparator rest = some m ↔ ∃ z, rest = zeros z ++ [0x01] ++ m := by
  constructor
  · intro h
    rw [messageAfterSeparator] at h
    split at h
    · cases h
    · next b t hdrop =>
      split at h
      · next hb =>
        obtain rfl : t = m := Option.some.inj h
        have hzeros : rest.takeWhile (· == 0x00) = zeros (rest.takeWhile (· == 0x00)).length := by
          refine List.eq_replicate_iff.2 ⟨rfl, fun c hc => ?_⟩
          simpa using List.mem_takeWhile_imp hc
        refine ⟨(rest.takeWhile (· == 0x00)).length, ?_⟩
        rw [← hzeros, List.append_assoc, List.singleton_append, ← hb, ← hdrop, List.takeWhile_append_dropWhile]
      · cases h
  · rintro ⟨z, rfl⟩
    exact messageAfterSeparator_zeros z m

/-! ### OAEP blocks -/

/-- The DB of R150: label hash, zeros, separator, message. -/
def oaepDB (P : Config.Params) (m l : List Byte) (k : Nat) : List Byte :=
  Config.hash P l ++ zeros (k - m.length - 2 * P.hLen - 2) ++ [0x01] ++ m

/-- The seed that R155 recovers from a block. -/
def unmaskedSeed (P : Config.Params) (em : List Byte) (k : Nat) : List Byte :=
  xorBytes (slice em 1 (1 + P.hLen)) (mgf1 (Config.hash P) (slice em (1 + P.hLen) k) P.hLen)

/-- The DB that R155 recovers from a block. -/
def unmaskedDB (P : Config.Params) (em : List Byte) (k : Nat) : List Byte :=
  xorBytes (slice em (1 + P.hLen) k) (mgf1 (Config.hash P) (unmaskedSeed P em k) (k - P.hLen - 1))

section
variable {P : Config.Params} {m l em seed : List Byte} {k : Nat}

theorem oaepDB_length (hk : m.length + 2 * P.hLen + 2 ≤ k) : (oaepDB P m l k).length = k - P.hLen - 1 := by
  simp only [oaepDB, List.length_append, hash_length, zeros_length, List.length_singleton]
  omega

theorem oaepBlock_eq (P : Config.Params) (m l : List Byte) (k : Nat) (seed : List Byte) :
    oaepBlock (Config.hash P) P.hLen m l k seed =
      [0x00] ++
        xorBytes seed (mgf1 (Config.hash P)
          (xorBytes (oaepDB P m l k) (mgf1 (Config.hash P) seed (k - P.hLen - 1))) P.hLen) ++
        xorBytes (oaepDB P m l k) (mgf1 (Config.hash P) seed (k - P.hLen - 1)) := rfl

/-- The three parts of an OAEP block: 0x00, masked seed, masked DB (R150). -/
theorem eq_oaepBlock_iff_parts (hem : em.length = k) (hk : m.length + 2 * P.hLen + 2 ≤ k) (hseed : seed.length = P.hLen) :
    em = oaepBlock (Config.hash P) P.hLen m l k seed ↔
      em.getD 0 0 = 0x00 ∧
        slice em 1 (1 + P.hLen) = xorBytes seed (mgf1 (Config.hash P) (slice em (1 + P.hLen) k) P.hLen) ∧
        slice em (1 + P.hLen) k = xorBytes (oaepDB P m l k) (mgf1 (Config.hash P) seed (k - P.hLen - 1)) := by
  have hdb := oaepDB_length (l := l) hk
  rw [oaepBlock_eq, eq_append_append_iff (i := 1) (j := 1 + P.hLen) hem rfl
    (by rw [xorBytes_length, mgf1_length, hseed, Nat.min_self])
    (by rw [xorBytes_length, mgf1_length, hdb]; omega), slice_succ (by omega)]
  constructor
  · rintro ⟨h0, hs, hd⟩
    exact ⟨List.singleton_inj.1 h0, hd ▸ hs, hd⟩
  · rintro ⟨h0, hs, hd⟩
    exact ⟨List.singleton_inj.2 h0, hd ▸ hs, hd⟩

/-- Unmasking undoes masking: a block fixes its seed and its DB. -/
theorem eq_oaepBlock_iff (hem : em.length = k) (hk : m.length + 2 * P.hLen + 2 ≤ k) (hseed : seed.length = P.hLen) :
    em = oaepBlock (Config.hash P) P.hLen m l k seed ↔
      em.getD 0 0 = 0x00 ∧ unmaskedSeed P em k = seed ∧ unmaskedDB P em k = oaepDB P m l k := by
  rw [eq_oaepBlock_iff_parts hem hk hseed, unmaskedDB, unmaskedSeed,
    xorBytes_eq_iff (by rw [slice_length, mgf1_length]; omega) (by rw [mgf1_length, hseed])]
  refine and_congr_right fun _ => and_congr_right fun hs => ?_
  rw [xorBytes_eq_iff (by rw [slice_length, mgf1_length]; omega) (by rw [mgf1_length, oaepDB_length hk]),
    (xorBytes_eq_iff (by rw [slice_length, mgf1_length]; omega) (by rw [mgf1_length, hseed])).2 hs]

theorem unmaskedSeed_length (hem : em.length = k) (hk : 2 * P.hLen + 2 ≤ k) : (unmaskedSeed P em k).length = P.hLen := by
  rw [unmaskedSeed, xorBytes_length, slice_length, mgf1_length]
  omega

theorem unmaskedDB_length (hem : em.length = k) : (unmaskedDB P em k).length = k - P.hLen - 1 := by
  rw [unmaskedDB, xorBytes_length, slice_length, mgf1_length]
  omega

/-- A string is an encoding of `m` exactly when it has the length, the leading 0x00 and, unmasked, the DB of `m`. -/
theorem isOaepBlock_iff :
    isOaepBlock P m l k em ↔
      m.length + 2 * P.hLen + 2 ≤ k ∧ em.length = k ∧ em.getD 0 0 = 0x00 ∧ unmaskedDB P em k = oaepDB P m l k := by
  constructor
  · rintro ⟨hk, seed, hseed, rfl⟩
    have hlen := oaepBlock_length (l := l) hseed hk
    obtain ⟨h0, -, hdb⟩ := (eq_oaepBlock_iff hlen hk hseed).1 rfl
    exact ⟨hk, hlen, h0, hdb⟩
  · rintro ⟨hk, hem, h0, hdb⟩
    have hseed : (unmaskedSeed P em k).length = P.hLen := unmaskedSeed_length hem (by omega)
    exact ⟨hk, _, hseed, (eq_oaepBlock_iff hem hk hseed).2 ⟨h0, rfl, hdb⟩⟩

/-- A string of the length of a DB is the DB of `m` exactly when it has the label hash and, behind it, `m` after the separator. -/
theorem eq_oaepDB_iff {db : List Byte} (hdb : db.length = k - P.hLen - 1) :
    (m.length + 2 * P.hLen + 2 ≤ k ∧ db = oaepDB P m l k) ↔
      db.take P.hLen = Config.hash P l ∧ messageAfterSeparator (db.drop P.hLen) = some m := by
  have hhash := hash_length P l
  rw [messageAfterSeparator_iff]
  constructor
  · rintro ⟨-, h⟩
    rw [h, oaepDB, List.append_assoc, List.append_assoc]
    exact ⟨List.take_left' hhash, _, by rw [List.drop_left' hhash, List.append_assoc]⟩
  · rintro ⟨htake, z, hdrop⟩
    have hrest := congrArg List.length hdrop
    simp only [List.length_drop, List.length_append, zeros_length, List.length_singleton] at hrest
    have hz : z = k - m.length - 2 * P.hLen - 2 := by omega
    refine ⟨by omega, ?_⟩
    rw [← List.take_append_drop P.hLen db, htake, hdrop, hz, oaepDB]
    simp only [List.append_assoc]

/-- R155 recovers `m` exactly from the encodings of `m`. -/
theorem oaepMessage_eq_some_iff :
    oaepMessage (Config.hash P) P.hLen em l k = some m ↔ isOaepBlock P m l k em := by
  rw [isOaepBlock_iff, oaepMessage]
  split
  · next hlen => exact iff_of_false (by simp) (by tauto)
  next hlen =>
    split
    · next hk => exact iff_of_false (by simp) (by omega)
    next hk =>
      have hem : em.length = k := not_not.1 hlen
      have hiff := eq_oaepDB_iff (m := m) (l := l) (unmaskedDB_length (P := P) hem)
      change (if em.getD 0 0 ≠ 0x00 ∨ (unmaskedDB P em k).take P.hLen ≠ Config.hash P l then none
        else messageAfterSeparator ((unmaskedDB P em k).drop P.hLen)) = some m ↔ _
      rw [ite_eq_iff]
      tauto

end

/-! ### OAEPENC -/

/-- Settles O51: the parts of the block are the masked seed and the masked DB. -/
theorem oaepencCompletes : Obligations.OaepencCompletes := by
  unfold Obligations.OaepencCompletes
  intro rd rs1 rs2 rs3 s hk hbuf
  have hseed := randBytes_length (s.upcoming 0) s.cfg.hLen
  have hlen := oaepBlock_length (l := s.readB rs2) hseed hk
  have hdb := oaepDB_length (l := s.readB rs2) hk
  obtain ⟨-, hmaskedSeed, hmaskedDB⟩ := (eq_oaepBlock_iff_parts hlen hk hseed).1 rfl
  rw [slice_to_end hlen, ← hdb] at hmaskedDB
  rw [slice_to_end hlen, slice, Nat.add_sub_cancel_left] at hmaskedSeed
  refine ⟨_, _, oaepDB s.cfg (s.readB rs1) (s.readB rs2) (s.readX rs3), ?_, hlen, rfl, rfl, hseed, rfl, hmaskedDB,
    hmaskedSeed⟩
  rw [exec, execOaepenc, if_neg (Nat.not_lt.2 hbuf), if_neg (Nat.not_lt.2 hk), completeB_ok, doneB]

/-- Settles O52: the two checks in their order. -/
theorem oaepencFails : Obligations.OaepencFails := by
  unfold Obligations.OaepencFails
  refine fun rd rs1 rs2 rs3 s => ⟨fun h => ?_, fun hbuf hk => ?_⟩
  · rw [exec, execOaepenc, if_pos h, completeB_error]
  · rw [exec, execOaepenc, if_neg (Nat.not_lt.2 hbuf), if_pos hk, completeB_error]

/-! ### OAEPDEC -/

/-- Settles O53: the message is recovered from each of its encodings. -/
theorem oaepdecInverts : Obligations.OaepdecInverts := by
  unfold Obligations.OaepdecInverts
  intro rd rs1 rs2 rs3 s m h
  rw [exec, execOaepdec, oaepMessage_eq_some_iff.2 h, completeB_ok, doneB]

/-- Settles O54: what is recovered is the message of an encoding, so from anything else nothing is recovered. -/
theorem oaepdecRejects : Obligations.OaepdecRejects := by
  unfold Obligations.OaepdecRejects
  intro rd rs1 rs2 rs3 s h
  have hnone : oaepMessage (Config.hash s.cfg) s.cfg.hLen (s.readB rs1) (s.readB rs2) (s.readX rs3) = none :=
    Option.eq_none_iff_forall_ne_some.2 fun m hm => h m (oaepMessage_eq_some_iff.1 hm)
  rw [exec, execOaepdec, hnone, completeB_error]

end Sys2Proof.Machine
end

section
/-! PROOFS. The PSS padding (42_padding.md R160 to R167). -/

namespace Sys2Proof.Machine

open Sys2Proof.Claims

/-! ### Clearing the top bits of the first byte -/

/-- The mask of R160 keeps the low `8 - z` bits. -/
theorem and_topMask_toNat {z : Nat} (hz : z ≤ 8) (b : Byte) :
    (b &&& BitVec.ofNat 8 (0xFF / 2 ^ z)).toNat = b.toNat % 2 ^ (8 - z) := by
  have hmask : ∀ y ≤ 8, (BitVec.ofNat 8 (0xFF / 2 ^ y)).toNat = 2 ^ (8 - y) - 1 := by decide
  rw [BitVec.toNat_and, hmask z hz, Nat.and_two_pow_sub_one_eq_mod]

/-- Clearing changes nothing exactly when the first byte passes the test (d) of R165. -/
theorem clearTopBits_eq_self_iff {z : Nat} (hz : z ≤ 8) (s : List Byte) :
    clearTopBits z s = s ↔ (s.getD 0 0).toNat / 2 ^ (8 - z) = 0 := by
  cases s with
  | nil => simp [clearTopBits]
  | cons b s =>
    have hpos := Nat.two_pow_pos (8 - z)
    rw [clearTopBits, List.getD_cons_zero, List.cons.injEq, and_iff_left rfl, BitVec.toNat_inj.symm,
      and_topMask_toNat hz, Nat.div_eq_zero_iff_lt hpos, Nat.mod_eq_iff_lt hpos.ne']

theorem clearTopBits_clearTopBits (z : Nat) (s : List Byte) : clearTopBits z (clearTopBits z s) = clearTopBits z s := by
  cases s with
  | nil => rfl
  | cons b s => rw [clearTopBits, clearTopBits, BitVec.and_assoc, BitVec.and_self]

/-- Bits that are cleared in the end may be cleared before masking. -/
theorem clearTopBits_xorBytes_clearTopBits (z : Nat) (s mask : List Byte) :
    clearTopBits z (xorBytes (clearTopBits z s) mask) = clearTopBits z (xorBytes s mask) := by
  cases s with
  | nil => rfl
  | cons b s =>
    cases mask with
    | nil => rfl
    | cons c mask =>
      have hbyte : ((b &&& BitVec.ofNat 8 (0xFF / 2 ^ z)) ^^^ c) &&& BitVec.ofNat 8 (0xFF / 2 ^ z) =
          (b ^^^ c) &&& BitVec.ofNat 8 (0xFF / 2 ^ z) := by
        ext i hi
        simp only [BitVec.getElem_and, BitVec.getElem_xor, Bool.and_xor_distrib_right, Bool.and_assoc, Bool.and_self]
      simp only [clearTopBits, xorBytes, List.zipWith_cons_cons, hbyte]

/-- A string whose first byte is 0 or 1 has no top bits to clear. -/
theorem clearTopBits_of_le_one {z : Nat} (hz : z < 8) {s : List Byte} (h : (s.getD 0 0).toNat ≤ 1) :
    clearTopBits z s = s := by
  have hpow : 2 ^ 1 ≤ 2 ^ (8 - z) := Nat.pow_le_pow_right (by decide) (by omega)
  rw [clearTopBits_eq_self_iff hz.le, Nat.div_eq_zero_iff_lt (Nat.two_pow_pos _)]
  omega

/-- Masked and cleared, then unmasked and cleared again, a string without top bits comes back, and the other way round. -/
theorem clearTopBits_xorBytes_eq_iff {z : Nat} {s t mask : List Byte} (hs : s.length = mask.length)
    (ht : t.length = mask.length) (hsz : clearTopBits z s = s) (htz : clearTopBits z t = t) :
    clearTopBits z (xorBytes s mask) = t ↔ s = clearTopBits z (xorBytes t mask) := by
  constructor
  · rintro rfl
    rw [clearTopBits_xorBytes_clearTopBits, xorBytes_cancel hs, hsz]
  · rintro rfl
    rw [clearTopBits_xorBytes_clearTopBits, xorBytes_cancel ht, htz]

theorem os2ip_cons (b : Byte) (s : List Byte) : os2ip (b :: s) = b.toNat * 256 ^ s.length + os2ip s := by
  rw [← List.singleton_append, os2ip_append]
  simp [os2ip]

/-- With `z` top bits cleared the number is `z` bits shorter. -/
theorem os2ip_clearTopBits_append_lt {z : Nat} (hz : z ≤ 8) {s : List Byte} (hs : 0 < s.length) (t : List Byte) :
    os2ip (clearTopBits z s ++ t) < 2 ^ (8 * (s.length + t.length) - z) := by
  cases s with
  | nil => cases hs
  | cons b s =>
    have hbyte : (b &&& BitVec.ofNat 8 (0xFF / 2 ^ z)).toNat < 2 ^ (8 - z) := by
      rw [and_topMask_toNat hz]
      exact Nat.mod_lt _ (Nat.two_pow_pos _)
    have hrest := os2ip_lt (s ++ t)
    have hexp : 8 * ((b :: s).length + t.length) - z = (8 - z) + 8 * (s ++ t).length := by
      rw [List.length_cons, List.length_append]
      omega
    rw [clearTopBits, List.cons_append, os2ip_cons, hexp, Nat.pow_add, Nat.pow_mul]
    exact Nat.lt_of_lt_of_le (Nat.add_lt_add_left hrest _)
      (by rw [← Nat.succ_mul]; exact Nat.mul_le_mul_right _ hbyte)

/-! ### PSS blocks -/

/-- The DB of R160: zeros, separator, salt. -/
def pssDB (P : Config.Params) (emBits : Nat) (salt : List Byte) : List Byte :=
  zeros (pssLength emBits - salt.length - P.hLen - 2) ++ [0x01] ++ salt

theorem pssLength_eq (emBits : Nat) : pssLength emBits = (emBits + 7) / 8 := rfl

/-- The number of top bits cleared is less than a byte's. -/
theorem pss_topBits_lt (emBits : Nat) : 8 * pssLength emBits - emBits < 8 := by
  rw [pssLength_eq]
  omega

section
variable {P : Config.Params} {m em salt : List Byte} {emBits : Nat}

theorem pssDB_length (hk : P.hLen + salt.length + 2 ≤ pssLength emBits) :
    (pssDB P emBits salt).length = pssLength emBits - P.hLen - 1 := by
  simp only [pssDB, List.length_append, zeros_length, List.length_singleton]
  omega

/-- The DB begins with a byte 0x00 or 0x01. -/
theorem clearTopBits_pssDB : clearTopBits (8 * pssLength emBits - emBits) (pssDB P emBits salt) = pssDB P emBits salt := by
  refine clearTopBits_of_le_one (pss_topBits_lt emBits) ?_
  rw [pssDB]
  cases pssLength emBits - salt.length - P.hLen - 2 with
  | zero => exact Nat.le_refl 1
  | succ n => exact Nat.zero_le 1

/-- The DB that R165 recovers from a block. -/
def unmaskedPssDB (P : Config.Params) (em : List Byte) (emBits : Nat) : List Byte :=
  clearTopBits (8 * pssLength emBits - emBits)
    (xorBytes (slice em 0 (pssLength emBits - P.hLen - 1))
      (mgf1 (Config.hash P) (slice em (pssLength emBits - P.hLen - 1) (pssLength emBits - 1))
        (pssLength emBits - P.hLen - 1)))

theorem pssBlock_eq (P : Config.Params) (m : List Byte) (emBits : Nat) (salt : List Byte) :
    pssBlock (Config.hash P) P.hLen m emBits salt =
      clearTopBits (8 * pssLength emBits - emBits)
          (xorBytes (pssDB P emBits salt)
            (mgf1 (Config.hash P) (pssHash (Config.hash P) m salt) (pssLength emBits - P.hLen - 1))) ++
        pssHash (Config.hash P) m salt ++ [0xBC] := rfl

/-- What R165 recovers from a block of the right form, its tests (c) and (d) passed: the hash and the DB that fix the block. -/
theorem eq_pssBlock_iff (hem : em.length = pssLength emBits) (hk : P.hLen + salt.length + 2 ≤ pssLength emBits) :
    em = pssBlock (Config.hash P) P.hLen m emBits salt ↔
      em.getD (pssLength emBits - 1) 0 = 0xBC ∧
        ((slice em 0 (pssLength emBits - P.hLen - 1)).getD 0 0).toNat /
          2 ^ (8 - (8 * pssLength emBits - emBits)) = 0 ∧
        slice em (pssLength emBits - P.hLen - 1) (pssLength emBits - 1) = pssHash (Config.hash P) m salt ∧
        unmaskedPssDB P em emBits = pssDB P emBits salt := by
  have hz := pss_topBits_lt emBits
  have hdb := pssDB_length hk
  have hlast : slice em (pssLength emBits - 1) (pssLength emBits) = [em.getD (pssLength emBits - 1) 0] := by
    rw [← slice_succ (by omega)]
    congr 1
    omega
  have hmaskedLength : (slice em 0 (pssLength emBits - P.hLen - 1)).length = pssLength emBits - P.hLen - 1 := by
    rw [slice_length]
    omega
  rw [pssBlock_eq, eq_append_append_iff (i := pssLength emBits - P.hLen - 1) (j := pssLength emBits - 1) hem
    (by rw [clearTopBits_length, xorBytes_length, mgf1_length, hdb, Nat.min_self])
    (by rw [pssHash, hash_length]; omega) (by rw [List.length_singleton]; omega), hlast,
    ← clearTopBits_eq_self_iff hz.le, unmaskedPssDB]
  constructor
  · rintro ⟨hmasked, hhash, htrailer⟩
    have hclear : clearTopBits (8 * pssLength emBits - emBits) (slice em 0 (pssLength emBits - P.hLen - 1)) =
        slice em 0 (pssLength emBits - P.hLen - 1) := by rw [hmasked, clearTopBits_clearTopBits]
    refine ⟨List.singleton_inj.1 htrailer, hclear, hhash, ?_⟩
    rw [clearTopBits_xorBytes_eq_iff (by rw [hmaskedLength, mgf1_length]) (by rw [hdb, mgf1_length]) hclear
      clearTopBits_pssDB, hmasked, hhash]
  · rintro ⟨htrailer, hclear, hhash, hunmasked⟩
    refine ⟨?_, hhash, List.singleton_inj.2 htrailer⟩
    rwa [clearTopBits_xorBytes_eq_iff (by rw [hmaskedLength, mgf1_length]) (by rw [hdb, mgf1_length]) hclear
      clearTopBits_pssDB, hhash] at hunmasked

theorem unmaskedPssDB_length (hem : em.length = pssLength emBits) :
    (unmaskedPssDB P em emBits).length = pssLength emBits - P.hLen - 1 := by
  rw [unmaskedPssDB, clearTopBits_length, xorBytes_length, slice_length, mgf1_length]
  omega

/-- The tests (e) and (f) of R165 leave one salt of the length given: what follows the separator. -/
theorem eq_pssDB_iff {db : List Byte} (hdb : db.length = pssLength emBits - P.hLen - 1)
    (hk : P.hLen + salt.length + 2 ≤ pssLength emBits) :
    db = pssDB P emBits salt ↔
      slice db 0 (pssLength emBits - P.hLen - salt.length - 2) = zeros (pssLength emBits - P.hLen - salt.length - 2) ∧
        db.getD (pssLength emBits - P.hLen - salt.length - 2) 0 = 0x01 ∧
        db.drop (pssLength emBits - P.hLen - salt.length - 2 + 1) = salt := by
  rw [pssDB, Nat.sub_right_comm (pssLength emBits) salt.length, eq_append_append_iff hdb (zeros_length _) rfl
    (by rw [List.length_singleton]; omega), List.length_singleton, slice_succ (by omega), slice_to_end hdb,
    List.singleton_inj]

end

/-- A test that must fail for the check to go on. -/
theorem ite_false_eq_true_iff {c : Prop} [Decidable c] {b : Bool} : (if c then false else b) = true ↔ ¬ c ∧ b = true := by
  split <;> simp [*]

/-- The verification of R165 accepts exactly the PSS encodings of the message. -/
theorem pssConsistent_iff {P : Config.Params} {m em : List Byte} {emBits sLen : Nat} :
    pssConsistent (Config.hash P) P.hLen m em emBits sLen = true ↔ isPssBlock P m emBits sLen em := by
  rw [isPssBlock, ← pssLength_eq, pssConsistent]
  simp only [ite_false_eq_true_iff, not_not, Nat.not_lt, decide_eq_true_eq]
  constructor
  · rintro ⟨hem, hk, htrailer, htop, hzeros, hone, hhash⟩
    have hdb := unmaskedPssDB_length (P := P) hem
    have hsalt : ((unmaskedPssDB P em emBits).drop (pssLength emBits - P.hLen - sLen - 2 + 1)).length = sLen := by
      rw [List.length_drop, hdb]
      omega
    refine ⟨hk, _, hsalt, (eq_pssBlock_iff hem (hsalt.symm ▸ hk)).2 ⟨htrailer, htop, hhash.symm, ?_⟩⟩
    rw [eq_pssDB_iff hdb (hsalt.symm ▸ hk), hsalt]
    exact ⟨hzeros, hone, rfl⟩
  · rintro ⟨hk, salt, rfl, rfl⟩
    have hem := pssBlock_length (m := m) hk
    obtain ⟨htrailer, htop, hhash, hunmasked⟩ := (eq_pssBlock_iff hem hk).1 rfl
    obtain ⟨hzeros, hone, hsalt⟩ := (eq_pssDB_iff (unmaskedPssDB_length hem) hk).1 hunmasked
    exact ⟨hem, hk, htrailer, htop, hzeros, hone, (congrArg (pssHash _ m) hsalt).trans hhash.symm⟩

/-! ### PSSVER and PSSENC -/

theorem exec_pssver {rs1 rs2 : BReg} {rs3 rs4 : XReg} {s : State} {b : Bool}
    (h : pssConsistent (Config.hash s.cfg) s.cfg.hLen (s.readB rs1) (s.readB rs2) (s.readX rs3) (s.readX rs4) = b)
    (rd : XReg) : exec (.pssver rd rs1 rs2 rs3 rs4) s = .next (doneX s rd b.toNat 0) := by
  rw [exec, execPssver, h, completeX_ok, doneX]

/-- Settles O57: the verdict is whether the string is an encoding. -/
theorem pssverCompletes : Obligations.PssverCompletes := by
  unfold Obligations.PssverCompletes
  refine fun rd rs1 rs2 rs3 rs4 s => ⟨fun h => ?_, fun h => ?_⟩
  · exact exec_pssver (pssConsistent_iff.2 h) rd
  · exact exec_pssver (Bool.eq_false_iff.2 (mt pssConsistent_iff.1 h)) rd

/-- The value of a PSS block fits in `emBits` bits (R161). -/
theorem os2ip_pssBlock_lt {P : Config.Params} {m salt : List Byte} {emBits : Nat}
    (hk : P.hLen + salt.length + 2 ≤ pssLength emBits) :
    os2ip (pssBlock (Config.hash P) P.hLen m emBits salt) < 2 ^ emBits := by
  have hmasked : (xorBytes (pssDB P emBits salt) (mgf1 (Config.hash P) (pssHash (Config.hash P) m salt)
      (pssLength emBits - P.hLen - 1))).length = pssLength emBits - P.hLen - 1 := by
    rw [xorBytes_length, mgf1_length, pssDB_length hk, Nat.min_self]
  have hexp : 8 * (pssLength emBits - P.hLen - 1 + (P.hLen + 1)) - (8 * pssLength emBits - emBits) = emBits := by
    have hlength := pssLength_eq emBits
    omega
  rw [pssBlock_eq, List.append_assoc]
  refine (os2ip_clearTopBits_append_lt (pss_topBits_lt emBits).le (by rw [hmasked]; omega) _).trans_eq ?_
  rw [hmasked, List.length_append, pssHash, hash_length, List.length_singleton, hexp]

/-- Settles O55: the block is the model's, with the drawn salt. -/
theorem pssencCompletes : Obligations.PssencCompletes := by
  unfold Obligations.PssencCompletes
  intro rd rs1 rs2 rs3 s hk hbuf
  rw [← pssLength_eq] at hk hbuf ⊢
  have hsalt := randBytes_length (s.upcoming 0) (s.readX rs3)
  have hk' : s.cfg.hLen + (randBytes (s.upcoming 0) (s.readX rs3)).length + 2 ≤ pssLength (s.readX rs2) := by
    rwa [hsalt]
  refine ⟨pssBlock (Config.hash s.cfg) s.cfg.hLen (s.readB rs1) (s.readX rs2) (randBytes (s.upcoming 0) (s.readX rs3)),
    _, _, pssDB s.cfg (s.readX rs2) (randBytes (s.upcoming 0) (s.readX rs3)), ?_, rfl, hsalt, rfl, ?_, ?_,
    pssBlock_length hk', os2ip_pssBlock_lt hk'⟩
  · rw [exec, execPssenc, if_neg (Nat.not_lt.2 hbuf), if_neg (Nat.not_lt.2 hk), completeB_ok, doneB]
  · rw [pssDB, hsalt]
  · rw [pssBlock_eq, pssDB_length hk', pssHash]

/-- Settles O56: the two checks in their order. -/
theorem pssencFails : Obligations.PssencFails := by
  unfold Obligations.PssencFails
  refine fun rd rs1 rs2 rs3 s => ⟨fun h => ?_, fun hbuf hk => ?_⟩
  · rw [exec, execPssenc, pssLength_eq, if_pos h, completeB_error]
  · rw [exec, execPssenc, pssLength_eq, if_neg (Nat.not_lt.2 hbuf), if_pos hk, completeB_error]

end Sys2Proof.Machine
end
